-- ==== Sys2Proof/Word.lean ====
section
/-! DEFINITION. The word types of the core (00_scope.md rules R4 and R7). -/

namespace Sys2Proof

/-- A byte, 0 to 255 (00_scope.md R7); also a register id and an opcode byte. -/
abbrev Byte := BitVec 8

/-- A word, 0 to 65535: `XLEN` = 16 bits, unsigned (00_scope.md R4, R7). -/
abbrev Word := BitVec 16

end Sys2Proof
end

