-- ==== Sys2Proof/Syntax.lean ====
section
/-! DEFINITION. The instructions, one constructor per row of spec/opcode_table.json (30_encoding.md rule R61). -/

namespace Sys2Proof

/-- The fourteen instructions, in tag order. Every constructor keeps the immediate flag, because the decoder
produces "(opcode, immediate)" for every opcode (30_encoding.md R62); only `Copy` uses it (R69). The operands are
bytes, so every term is encodable (R66). -/
inductive Instr where
  /-- Tag 0, format L (42_call.md R110): call state, the two target bytes in stream order, destination id. -/
  | call (imm : Bool) (cs t0 t1 dst : Byte)
  /-- Tag 1 (43_scope_abort.md R130). -/
  | scope (imm : Bool)
  /-- Tag 2 (43_scope_abort.md R132). -/
  | abort (imm : Bool)
  /-- Tag 3 (45_unspecified_opcodes.md R155). -/
  | mset (imm : Bool)
  /-- Tag 4 (45_unspecified_opcodes.md R156). -/
  | mget (imm : Bool)
  /-- Tag 5 (45_unspecified_opcodes.md R157). -/
  | cmp (imm : Bool)
  /-- Tag 6 (45_unspecified_opcodes.md R158). -/
  | jump (imm : Bool)
  /-- Tag 7 (45_unspecified_opcodes.md R159). -/
  | tjmp (imm : Bool)
  /-- Tag 8 (45_unspecified_opcodes.md R160). -/
  | fjmp (imm : Bool)
  /-- Tag 9, format C (44_copy.md R145): source (a literal or a register id), destination id. -/
  | copy (imm : Bool) (src dst : Byte)
  /-- Tag 10 (45_unspecified_opcodes.md R161). -/
  | add (imm : Bool)
  /-- Tag 11 (45_unspecified_opcodes.md R162). -/
  | sub (imm : Bool)
  /-- Tag 12 (45_unspecified_opcodes.md R163). -/
  | mul (imm : Bool)
  /-- Tag 13 (45_unspecified_opcodes.md R164). -/
  | div (imm : Bool)
deriving DecidableEq, Repr

end Sys2Proof
end

