-- ==== Sys2Proof/Decode.lean ====
section
/-! DEFINITION. The decoder, total on any bytes, and the encoder (30_encoding.md). -/

namespace Sys2Proof

/-- `tag = byte[7:1] = byte >> 1` (30_encoding.md R61). -/
def tagOf (b : Byte) : Nat := (b >>> 1).toNat

/-- `imm = byte[0] = byte & 1` (30_encoding.md R61). -/
def immOf (b : Byte) : Bool := b.getLsbD 0

/-- What the decoder reads at the head of a list of bytes. -/
inductive Decoded where
  /-- An instruction and the bytes after it. -/
  | ok (i : Instr) (rest : List Byte)
  /-- The opcode byte's tag is 14 to 127 (30_encoding.md R68); it carries the raw byte. -/
  | invalidOpcode (b : Byte)
  /-- There are fewer bytes than the tag's length asks for (40_decode_dispatch.md R88). That the decoder finds it is the model's
  arrangement (DESIGN CHOICE, log 23). -/
  | truncated
deriving DecidableEq, Repr

/-- The decoder (30_encoding.md R61 to R67). The tag alone decides the length; an invalid tag is found before any
operand is looked at (40_decode_dispatch.md R82). -/
def decode : List Byte → Decoded
  | [] => .truncated
  | b :: rest =>
    match tagOf b, rest with
    | 0, cs :: t0 :: t1 :: dst :: rest => .ok (.call (immOf b) cs t0 t1 dst) rest
    | 0, _ => .truncated
    | 1, rest => .ok (.scope (immOf b)) rest
    | 2, rest => .ok (.abort (immOf b)) rest
    | 3, rest => .ok (.mset (immOf b)) rest
    | 4, rest => .ok (.mget (immOf b)) rest
    | 5, rest => .ok (.cmp (immOf b)) rest
    | 6, rest => .ok (.jump (immOf b)) rest
    | 7, rest => .ok (.tjmp (immOf b)) rest
    | 8, rest => .ok (.fjmp (immOf b)) rest
    | 9, src :: dst :: rest => .ok (.copy (immOf b) src dst) rest
    | 9, _ => .truncated
    | 10, rest => .ok (.add (immOf b)) rest
    | 11, rest => .ok (.sub (immOf b)) rest
    | 12, rest => .ok (.mul (immOf b)) rest
    | 13, rest => .ok (.div (immOf b)) rest
    | _, _ => .invalidOpcode b

/-- The number of operand bytes behind the opcode byte, by tag (30_encoding.md R67). -/
def operandBytes : Nat → Nat
  | 0 => 4
  | 9 => 2
  | _ => 0

/-- The instruction's tag (30_encoding.md R61). -/
def Instr.tag : Instr → Nat
  | .call .. => 0
  | .scope _ => 1
  | .abort _ => 2
  | .mset _ => 3
  | .mget _ => 4
  | .cmp _ => 5
  | .jump _ => 6
  | .tjmp _ => 7
  | .fjmp _ => 8
  | .copy .. => 9
  | .add _ => 10
  | .sub _ => 11
  | .mul _ => 12
  | .div _ => 13

/-- The instruction's immediate flag. -/
def Instr.imm : Instr → Bool
  | .call imm _ _ _ _ => imm
  | .scope imm => imm
  | .abort imm => imm
  | .mset imm => imm
  | .mget imm => imm
  | .cmp imm => imm
  | .jump imm => imm
  | .tjmp imm => imm
  | .fjmp imm => imm
  | .copy imm _ _ => imm
  | .add imm => imm
  | .sub imm => imm
  | .mul imm => imm
  | .div imm => imm

/-- The operand bytes in stream order: format L (30_encoding.md R65), format C (R64), format N (R63). -/
def Instr.operands : Instr → List Byte
  | .call _ cs t0 t1 dst => [cs, t0, t1, dst]
  | .copy _ src dst => [src, dst]
  | .scope _ => []
  | .abort _ => []
  | .mset _ => []
  | .mget _ => []
  | .cmp _ => []
  | .jump _ => []
  | .tjmp _ => []
  | .fjmp _ => []
  | .add _ => []
  | .sub _ => []
  | .mul _ => []
  | .div _ => []

/-- The instruction's length in bytes (30_encoding.md R67). -/
def Instr.length (i : Instr) : Nat := 1 + operandBytes i.tag

/-- The opcode byte `(opcodeTag << 1) | immediateFlag` (30_encoding.md R61). -/
def opcodeByte (tag : Nat) (imm : Bool) : Byte := BitVec.ofNat 8 (2 * tag + imm.toNat)

/-- The encoder: the opcode byte and the operand bytes, with no padding (30_encoding.md R60). -/
def encode (i : Instr) : List Byte := opcodeByte i.tag i.imm :: i.operands

/-- The length in bytes of the longest instruction, `Call` (30_encoding.md R60). -/
abbrev maxInstrBytes : Nat := 5

/-- The bytes, first at the lowest position, of an instruction numbered as spec/opcode_table.json numbers it: byte `k` is
bits `8k+7` down to `8k`, and every bit from `nbits` up is 0. -/
def tableBytes (nbits w : Nat) : List Byte :=
  (List.range maxInstrBytes).map fun k => BitVec.ofNat 8 ((w % 2 ^ nbits) >>> (8 * k))

/-- The instruction the decoder reads from an instruction numbered as the table numbers it. -/
def decodeTableWord (nbits w : Nat) : Option Instr :=
  match decode (tableBytes nbits w) with
  | .ok i _ => some i
  | .invalidOpcode _ => none
  | .truncated => none

end Sys2Proof
end

