-- ==== Sys2Proof/Config.lean ====
section
/-! DEFINITION. What the source fixes (00_scope.md rule R4) and the parameters it leaves open (rule R5). -/

namespace Sys2Proof

/-- `MEM_SIZE`: 65535 bytes, not 65536 (00_scope.md R4; 93_implementation_defined.md, unaudited literals). -/
abbrev memSize : Nat := 65535

/-- `MEM` and its contents (10_state.md R26) as address and byte pairs, addresses strictly rising and below `MEM_SIZE`. A byte
that is not listed has no value (DESIGN CHOICE, log 6). -/
abbrev Machine.Memory := List Host.Cell

/-- The canonical form: addresses strictly rising, all of them addresses of `MEM`. No byte value is what an unlisted
address reads as, so any byte may be listed. -/
abbrev Machine.Memory.wf (m : Machine.Memory) : Prop :=
  m.Pairwise (fun c d => c.1 < d.1) ∧ ∀ c ∈ m, c.1 < memSize

/-- `NTAGS`: tags 0 to 13 are defined (00_scope.md R4). -/
abbrev numTags : Nat := 14

/-- `CALL_ADDR_ORDER`, the byte order of `Call`'s target operand (20_memory.md R43). -/
inductive AddrOrder where
  | little
  | big
deriving DecidableEq, Repr

/-- `CALL_TARGET_MODE`, what a `Call` target is measured from (42_call.md R113). -/
inductive TargetMode where
  | absolute
  | callerSlice
deriving DecidableEq, Repr

/-- The open parameters of 00_scope.md rule R5, "each as a configuration field so that a different choice
is a different configuration and not a different machine". They are an input of the launch (R202) that
no step changes (log 1). `LEN` is no field: it is the length of the stream, another input of the launch. -/
structure Config where
  /-- `PC_BITS`, the width of a program counter (D3). -/
  pcBits : Nat
  /-- `CALL_ADDR_BYTES`. The four operand bytes of `Call`, less one and one, leave one value, 2 (30_encoding.md R65, 42_call.md
  R112): `Config.wellFormed` asks for it, and no step reads it (log 42). -/
  callAddrBytes : Nat
  /-- `CALL_ADDR_ORDER` (D5). -/
  callAddrOrder : AddrOrder
  /-- `CALL_TARGET_MODE` (D8). -/
  callTargetMode : TargetMode
  /-- `CS_NORMAL` (D7). -/
  csNormal : Byte
  /-- `CS_RESERVED` (D7). -/
  csReserved : Byte
  /-- `ABORT_SKEW`, added to `PC` after `Abort` takes a resume address (D16). -/
  abortSkew : Nat
  /-- `RESET_WORD` (D19). -/
  resetWord : Word
  /-- `MEM_INIT`, what `MEM` holds at a launch (D20): any contents at all, and a byte it does not list has no value (log 6). -/
  memInit : Machine.Memory
  /-- `MAX_DEPTH`, most activations alive at once; `none` is the unbounded reference model (D24). -/
  maxDepth : Option Nat
  /-- `FRAME_CAP`, most frames alive at once; `none` is the unbounded reference model (D24). -/
  frameCap : Option Nat
  /-- `ERR_GENERAL` (D21). -/
  errGeneral : Nat
  /-- `ERR_INVALID_OPCODE` (D21). -/
  errInvalidOpcode : Nat
  /-- `ERR_INVALID_CALL_ADDRESS` (D21). -/
  errInvalidCallAddress : Nat
deriving DecidableEq, Repr

/-- The values 00_scope.md rule R5 decides. `MEM_INIT` is "unspecified" there: no byte is listed (log 6). -/
def Config.default : Config where
  pcBits := 32
  callAddrBytes := 2
  callAddrOrder := .little
  callTargetMode := .absolute
  csNormal := 0
  csReserved := 1
  abortSkew := 1
  resetWord := 0
  memInit := []
  maxDepth := none
  frameCap := none
  errGeneral := 1
  errInvalidOpcode := 2
  errInvalidCallAddress := 3

end Sys2Proof
end

