-- ==== Sys2Proof/Machine/State.lean ====
section
/-! DEFINITION. The state of the core (10_state.md), its reset, the faults and the refusals. -/

namespace Sys2Proof.Machine

/-! ## Errors and diagnostics -/

/-- The three error kinds (60_exceptions.md R170). -/
inductive ErrKind where
  | general
  | invalidOpcode
  | invalidCallAddress
deriving DecidableEq, Repr

/-- The `access` field of a diagnostic (60_exceptions.md R174). -/
inductive Access where
  | read
  | write
  | none
deriving DecidableEq, Repr

/-- The diagnostic record (60_exceptions.md R174). -/
structure Diag where
  kind : ErrKind
  /-- Register id, raw opcode byte or raw call target, by kind. -/
  value : Word
  access : Access
deriving DecidableEq, Repr

/-- The reasons of a machine check (60_exceptions.md R186 to R188). -/
inductive McReason where
  | truncated
  | callState
  | depth
deriving DecidableEq, Repr

/-! ## Frames and activations

A frame reference is a position in the frame store (10_state.md R21, log 12) and an address a position in the instruction
stream. Both are natural numbers: `PC` never wraps (R17), and decision D3 allows unbounded naturals (log 7). -/

/-- A frame (10_state.md R22). The `memory` field has the same value in every frame of a launch and is not stored. -/
structure Frame where
  parent : Option Nat
  resume : Option Nat
  args : Vector Word 8
deriving DecidableEq, Repr

/-- An activation record (10_state.md R12). -/
structure Activation where
  /-- `G[0..31]` (R13). -/
  g : Vector Word 32
  /-- `S[0..7]` (R15). -/
  staging : Vector Word 8
  /-- `RET` (R16). -/
  ret : Word
  /-- `PC`, an absolute position (R17). -/
  pc : Nat
  /-- `BASE` (R18). -/
  base : Nat
  /-- `CUR` (R19). -/
  cur : Nat
  /-- `DIAG`; `none` is `EMPTY` (R20). -/
  diag : Option Diag
deriving DecidableEq, Repr

/-! ## The state -/

/-- `STATUS` (10_state.md R28). -/
inductive Status where
  | idle
  | running
  | done
  | error
  | undefined
deriving DecidableEq, Repr

/-- `OUT` (10_state.md R29). A field means something only when its "valid when" condition on `STATUS` holds. -/
structure Out where
  /-- `OUT.RESULT`, valid when `STATUS` is DONE. -/
  result : Word
  /-- `OUT.G[0..31]`, valid when `STATUS` is DONE. -/
  g : Vector Word 32
  /-- `OUT.ERR_KIND`, an error code, valid when `STATUS` is ERROR (60_exceptions.md R170). -/
  errKind : Nat
  /-- `OUT.ERR_DIAG`, valid when `STATUS` is ERROR. -/
  errDiag : Option Diag
  /-- `OUT.ERR_DEPTH`, valid when `STATUS` is ERROR. -/
  errDepth : Nat
  /-- `OUT.MC_REASON`, valid when `STATUS` is UNDEFINED. -/
  mcReason : McReason
deriving DecidableEq, Repr

/-- The complete state (10_state.md R10), with the inputs of the launch that no step changes beside it (R30, R31,
00_scope.md R5; log 1, log 2). The activation stack `ACT[0..DEPTH]` (R11) is the running activation and the
suspended ones, newest first, so it is never empty. -/
structure State where
  /-- The parameters of this implementation. -/
  cfg : Config
  /-- `IM`, the instruction stream (R30). -/
  im : List Byte
  /-- The builtin table's names, accepted and never read (R31, log 27). -/
  builtins : List String
  /-- `A = ACT[DEPTH]`, the running activation. -/
  act : Activation
  /-- `ACT[DEPTH-1]` down to `ACT[0]`, each suspended in its own `Call`. -/
  callers : List Activation
  /-- The frame store in order of creation; a frame reference is a position in it (R21, log 12). -/
  frames : List Frame
  /-- `MEM` (R26), the memory type of Sys2Proof/Config.lean. -/
  mem : Memory
  /-- `STATUS` (R28). -/
  status : Status
  /-- `OUT` (R29). -/
  out : Out
deriving DecidableEq, Repr

/-- `LEN`, the length of the instruction stream (10_state.md R30). -/
def State.len (s : State) : Nat := s.im.length

/-- `DEPTH`, the index of the newest activation (10_state.md R11). -/
def State.depth (s : State) : Nat := s.callers.length

/-- The whole activation stack, newest first (10_state.md R11). -/
def State.activations (s : State) : List Activation := s.act :: s.callers

/-- The frame a reference names. -/
def State.frame? (s : State) (r : Nat) : Option Frame := s.frames[r]?

/-! ## Reset -/

/-- The values `OUT` holds after a launch, which the spec leaves unspecified (10_state.md R35; DESIGN CHOICE, log 5).
No step reads them. -/
def Out.reset : Out where
  result := 0
  g := Vector.replicate 32 0
  errKind := 0
  errDiag := none
  errDepth := 0
  mcReason := .truncated

/-- The machine right after reset. "The core has one kind of reset: the launch" (70_reset_and_hazards.md R200), so this is
the state of R203 and R204 under the parameters of 00_scope.md R5; no program is in it: the stream is the empty one,
which 10_state.md R30 calls legal (log 3). -/
def State.reset : State where
  cfg := Config.default
  im := []
  builtins := []
  act :=
    { g := Vector.replicate 32 0
      staging := Vector.replicate 8 0
      ret := 0
      pc := 0
      base := 0
      cur := 0
      diag := none }
  callers := []
  frames := [{ parent := none, resume := none, args := Vector.replicate 8 0 }]
  mem := []
  status := .running
  out := Out.reset

/-- The machine after power-on, before the first launch: `STATUS` is IDLE and "everything else is unspecified"
(10_state.md R35, 70_reset_and_hazards.md R201); the other fields are those of reset (DESIGN CHOICE, log 28). -/
def State.powerOn (c : Config) : State :=
  { State.reset with cfg := c, status := .idle }

/-! ## Faults and refusals -/

/-- Why the machine stops. The machine checks carry the state they leave: `STATUS` UNDEFINED and the reason in
`OUT.MC_REASON` (60_exceptions.md R185, log 9). -/
inductive Fault where
  /-- `MC_TRUNCATED` (60_exceptions.md R186): raised by the fetch of a `Copy` or a `Call` whose operand bytes would lie at or
  beyond `LEN`, and by their handlers. Safe. -/
  | mcTruncated (stopped : State)
  /-- `MC_CALLSTATE` (60_exceptions.md R187): raised by `Call` with a call state that is neither recognised value. Safe. -/
  | mcCallState (stopped : State)
  /-- `MC_DEPTH` (60_exceptions.md R188): raised by `Call` and `Scope` when a finite limit is reached. Safe. -/
  | mcDepth (stopped : State)
  /-- The core takes steps only while `STATUS` is RUNNING (40_decode_dispatch.md R80): raised by the step in every other
  status; after DONE the run has ended well and the host reads `OUT`. Safe (log 10). -/
  | notRunning (status : Status)
  /-- `CUR` names no frame of the store: raised by `Abort` and by a read of ids 32 to 39, in no state that a run
  reaches. Safe (log 13). -/
  | danglingFrame (ref : Nat)
  /-- The suspended caller's `Call` has no destination byte in the stream: raised by the activation-end step, in no
  state that a run reaches. Safe (log 13). -/
  | callerPastEnd (pc : Nat)
  /-- An access of `MemRead` or `MemWrite` with `addr + n > MEM_SIZE`, one of no bytes among them (20_memory.md R46 leaves it open;
  DESIGN CHOICE, log 43). No step raises it, because no instruction calls either (R47). Safe. -/
  | memAbsent (addr : Nat)
  /-- `MemRead` of a byte that neither `MEM_INIT` lists nor a write has written (10_state.md R35). No step raises it. Safe (log 6). -/
  | memUnwritten (addr : Nat)
deriving DecidableEq, Repr

/-- Why an instruction has no meaning. -/
inductive Refusal where
  /-- An arm of exec whose instruction has no meaning yet; no arm is left so. Safe. -/
  | notModelled (mnemonic : String)
deriving DecidableEq, Repr

/-- The outcome of one step of this machine. -/
abbrev Outcome := Host.Outcome State Fault Refusal

/-- Why an operation inside a step does not give its value: it raises an error, it makes a machine check, or the
state is one no run reaches. -/
inductive Stop where
  /-- `raise K(info)` (60_exceptions.md R175). -/
  | error (d : Diag)
  /-- `machine_check(reason)` (60_exceptions.md R185). -/
  | check (r : McReason)
  /-- A fault that the invariant of reached states rules out (log 13). -/
  | broken (f : Fault)
deriving DecidableEq, Repr

end Sys2Proof.Machine
end

