-- ==== Sys2Proof/Machine/Ops.lean ====
section
/-! DEFINITION. The shared operations: fields of the running activation, the register paths, frames and activations,
taking an error, machine checks, and the data memory. -/

namespace Sys2Proof.Machine

/-! ## Fields of the running activation (00_scope.md R8) -/

/-- `A.PC <- t`. -/
def State.setPc (s : State) (t : Nat) : State := { s with act := { s.act with pc := t } }

/-- `A.CUR <- f`. -/
def State.setCur (s : State) (f : Nat) : State := { s with act := { s.act with cur := f } }

/-- `A.G[i] <- v`. -/
def State.setG (s : State) (i : Fin 32) (v : Word) : State :=
  { s with act := { s.act with g := s.act.g.set i v } }

/-- `A.S[i] <- v`. -/
def State.setStaging (s : State) (i : Fin 8) (v : Word) : State :=
  { s with act := { s.act with staging := s.act.staging.set i v } }

/-- `A.RET <- v`. -/
def State.setRet (s : State) (v : Word) : State := { s with act := { s.act with ret := v } }

/-! ## Errors and machine checks (60_exceptions.md) -/

/-- The code of an error kind (60_exceptions.md R170). -/
def errCode (c : Config) : ErrKind → Nat
  | .general => c.errGeneral
  | .invalidOpcode => c.errInvalidOpcode
  | .invalidCallAddress => c.errInvalidCallAddress

/-- Taking an exception: `raise K(value, access)` (60_exceptions.md R175). The record goes to the running activation's `DIAG`
and to `OUT`, and the run ends with `STATUS` ERROR; `PC` and everything else stay (R181). There is no handler (R178) and no
return from an error (R179). -/
def raise (d : Diag) (s : State) : State :=
  { s with
    act := { s.act with diag := some d }
    out := { s.out with errKind := errCode s.cfg d.kind, errDiag := some d, errDepth := s.depth }
    status := .error }

/-- The state a machine check leaves (60_exceptions.md R185). -/
def stoppedBy (r : McReason) (s : State) : State :=
  { s with out := { s.out with mcReason := r }, status := .undefined }

/-- `machine_check(reason)` (60_exceptions.md R185): "A model must treat every machine check as a fault or a refusal". -/
def machineCheck (r : McReason) (s : State) : Fault :=
  match r with
  | .truncated => .mcTruncated (stoppedBy .truncated s)
  | .callState => .mcCallState (stoppedBy .callState s)
  | .depth => .mcDepth (stoppedBy .depth s)

/-- What a stop inside a step makes of the step, in the state in which it happened. -/
def stopOutcome (e : Stop) (s : State) : Outcome :=
  match e with
  | .error d => .next (raise d s)
  | .check r => .fault (machineCheck r s)
  | .broken f => .fault f

/-- The outcome of a step whose effects are `r`, `s` being the state in which any stop happened. -/
def settle (s : State) (r : Except Stop State) : Outcome :=
  match r with
  | .ok t => .next t
  | .error e => stopOutcome e s

/-! ## Register access paths (41_register_access.md) -/

/-- `General` with the offending id (60_exceptions.md R171). -/
def badRegister (id : Byte) (a : Access) : Diag := ⟨.general, id.setWidth 16, a⟩

/-- `RegRead(id)` (41_register_access.md R100). Ids 32 to 39 read the frame that is current at the moment of the read. -/
def regRead (id : Byte) (s : State) : Except Stop Word :=
  if h : id.toNat < 32 then
    .ok s.act.g[id.toNat]
  else if h' : id.toNat < 40 then
    match s.frame? s.act.cur with
    | some f => .ok (f.args[id.toNat - 32])
    | none => .error (.broken (.danglingFrame s.act.cur))
  else
    .error (.error (badRegister id .read))

/-- `RegWrite(id, v)` (41_register_access.md R101). -/
def regWrite (id : Byte) (v : Word) (s : State) : Except Stop State :=
  if h : id.toNat < 32 then
    .ok (s.setG ⟨id.toNat, h⟩ v)
  else if h' : id.toNat < 40 then
    .ok (s.setStaging ⟨id.toNat - 32, by omega⟩ v)
  else if id.toNat = 40 then
    .ok (s.setRet v)
  else
    .error (.error (badRegister id .write))

/-! ## Frames and activations (10_state.md) -/

/-- The references met by following `parent` links, at most `fuel` of them. -/
def chainFrom (fs : List Frame) : Nat → Nat → List Nat
  | 0, _ => []
  | fuel + 1, r =>
    match fs[r]? with
    | none => []
    | some f =>
      r :: match f.parent with
        | none => []
        | some p => chainFrom fs fuel p

/-- A frame and its ancestors. A frame is made after its parent, so its position bounds the number of links. -/
def frameChain (fs : List Frame) (r : Nat) : List Nat := chainFrom fs (r + 1) r

/-- A frame is live while some activation's `CUR` reaches it by `parent` links (10_state.md R21). -/
def State.live (s : State) (r : Nat) : Bool :=
  s.activations.any fun a => (frameChain s.frames a.cur).contains r

/-- The number of live frames (10_state.md R21). -/
def State.liveFrames (s : State) : Nat := (List.range s.frames.length).countP s.live

/-- Whether `n` reaches a limit. -/
def atLimit (limit : Option Nat) (n : Nat) : Bool :=
  match limit with
  | none => false
  | some m => decide (m ≤ n)

/-- `NewFrame(parent, resume, args)` (10_state.md R24): the new frame's reference and the state whose store holds it. -/
def newFrame (f : Frame) (s : State) : Except Stop (Nat × State) :=
  if atLimit s.cfg.frameCap s.liveFrames then
    .error (.check .depth)
  else
    .ok (s.frames.length, { s with frames := s.frames ++ [f] })

/-- A fresh activation that starts at `base` with the frame `cur` (10_state.md R36). -/
def freshActivation (c : Config) (base : Nat) (cur : Nat) : Activation where
  g := Vector.replicate 32 c.resetWord
  staging := Vector.replicate 8 c.resetWord
  ret := 0
  pc := base
  base := base
  cur := cur
  diag := none

/-- Pushing an activation (42_call.md R114): the caller is suspended as it stands. -/
def pushActivation (a : Activation) (s : State) : Except Stop State :=
  if atLimit s.cfg.maxDepth s.activations.length then
    .error (.check .depth)
  else
    .ok { s with act := a, callers := s.act :: s.callers }

/-- Popping the running activation (40_decode_dispatch.md R87): `c` runs again, above `cs`. -/
def popActivation (c : Activation) (cs : List Activation) (s : State) : State :=
  { s with act := c, callers := cs }

/-! ## Data memory (20_memory.md R46). No instruction calls these (R47). -/

/-- The byte of `MEM` at an address; `none` where nothing has been written. -/
def Memory.read (m : Memory) (a : Nat) : Option Byte :=
  match m with
  | [] => none
  | c :: rest => if c.1 = a then some c.2 else Memory.read rest a

/-- Writing one byte, keeping the addresses rising. -/
def Memory.write (m : Memory) (a : Nat) (b : Byte) : Memory :=
  match m with
  | [] => [(a, b)]
  | c :: rest =>
    if a < c.1 then (a, b) :: c :: rest
    else if a = c.1 then (a, b) :: rest
    else c :: Memory.write rest a b

/-- The `n` bytes of `MEM` from `addr`, first the lowest; one that has no value stops (log 6). -/
def Memory.readAll (m : Memory) (addr : Nat) : Nat → Except Fault (List Byte)
  | 0 => .ok []
  | n + 1 =>
    match m.read addr with
    | none => .error (.memUnwritten addr)
    | some b =>
      match Memory.readAll m (addr + 1) n with
      | .error e => .error e
      | .ok bs => .ok (b :: bs)

/-- `MemRead(addr, n)`. The spec fixes no byte order (20_memory.md R44), so no word is made of the bytes (log 40). It leaves open
what an access with `addr + n > MEM_SIZE` does (R46); here it stops, one of no bytes among them (DESIGN CHOICE, log 43). -/
def memRead (addr n : Nat) (s : State) : Except Fault (List Byte) :=
  if memSize < addr + n then
    .error (.memAbsent addr)
  else
    s.mem.readAll addr n

/-- Writing bytes from `addr` on, first the lowest. -/
def Memory.writeAll (m : Memory) (addr : Nat) : List Byte → Memory
  | [] => m
  | b :: bs => Memory.writeAll (m.write addr b) (addr + 1) bs

/-- `MemWrite(addr, n, v)`, the value as its `n` bytes: with `addr + n > MEM_SIZE`, also for no bytes, it stops and nothing is
written (DESIGN CHOICE, log 43). -/
def memWrite (addr : Nat) (bs : List Byte) (s : State) : Except Fault State :=
  if memSize < addr + bs.length then
    .error (.memAbsent addr)
  else
    .ok { s with mem := s.mem.writeAll addr bs }

end Sys2Proof.Machine
end

