-- ==== Sys2Proof/Machine/Operands.lean ====
section
/-! DEFINITION. Operand forms: the operand extent, `Copy`'s source, `Call`'s target (30_encoding.md rule R66). -/

namespace Sys2Proof.Machine

/-- The operand-extent check for `n` operand bytes: `A.PC + n < LEN` (40_decode_dispatch.md R88). -/
def operandsInside (n : Nat) (s : State) : Except Stop Unit :=
  if s.act.pc + n < s.len then .ok () else .error (.check .truncated)

/-- `Copy`'s source: the literal byte zero-extended, "never sign-extended, scaled or shifted", or the register it names
(44_copy.md R145, R146). -/
def copySource (imm : Bool) (src : Byte) (s : State) : Except Stop Word :=
  if imm then .ok (src.setWidth 16) else regRead src s

/-- `assemble(t0, t1)`, the raw target of `Call` (42_call.md R112). -/
def callTargetRaw (c : Config) (t0 t1 : Byte) : Word :=
  match c.callAddrOrder with
  | .little => BitVec.ofNat 16 (t0.toNat + 256 * t1.toNat)
  | .big => BitVec.ofNat 16 (256 * t0.toNat + t1.toNat)

/-- `target(T_raw)`, an unbounded integer (42_call.md R113, 45_unspecified_opcodes.md R166). -/
def callTarget (s : State) (raw : Word) : Nat :=
  match s.cfg.callTargetMode with
  | .absolute => raw.toNat
  | .callerSlice => s.act.base + raw.toNat

/-- A call target is valid when it lies in the stream and the byte there has the tag of `Scope` (42_call.md R113). -/
def targetValid (s : State) (t : Nat) : Bool :=
  match s.im[t]? with
  | none => false
  | some b => tagOf b == 1

end Sys2Proof.Machine
end

