-- ==== Sys2Proof/Machine/Call.lean ====
section
/-! DEFINITION. The meaning of `Call`, first half (42_call.md). The second half is the activation-end step of
Sys2Proof/Machine/Loop.lean (40_decode_dispatch.md rule R87). -/

namespace Sys2Proof.Machine

/-- A normal call (42_call.md R113, R114): the target is checked, the call-created frame made and the callee pushed.
The caller's `PC` stays at the `Call`. -/
def callNormal (raw : Word) (s : State) : Except Stop State :=
  let target := callTarget s raw
  if targetValid s target then do
    let (f, s₁) ← newFrame ⟨some s.act.cur, some (s.act.pc + 5), s.act.staging⟩ s
    pushActivation (freshActivation s.cfg target f) s₁
  else
    .error (.error ⟨.invalidCallAddress, raw, .none⟩)

/-- `Call` (42_call.md R110), the checks in the order of R118. The immediate flag is ignored (30_encoding.md R69) and `dst` is
not looked at until the callee has ended (R115). -/
def execCall (_imm : Bool) (cs t0 t1 _dst : Byte) (s : State) : Outcome :=
  settle s do
    operandsInside 4 s
    if cs = s.cfg.csReserved then
      return s.setPc (s.act.pc + 5)
    else if cs = s.cfg.csNormal then
      callNormal (callTargetRaw s.cfg t0 t1) s
    else
      .error (.check .callState)

end Sys2Proof.Machine
end

