-- ==== Sys2Proof/Machine/Copy.lean ====
section
/-! DEFINITION. The meaning of `Copy` (44_copy.md). -/

namespace Sys2Proof.Machine

/-- `Copy` (44_copy.md R145): operand extent, source, destination, then `PC + 3`. The read comes before the write (R147). -/
def execCopy (imm : Bool) (src dst : Byte) (s : State) : Outcome :=
  settle s do
    operandsInside 2 s
    let v ← copySource imm src s
    let t ← regWrite dst v s
    return t.setPc (s.act.pc + 3)

end Sys2Proof.Machine
end

