-- ==== Sys2Proof/Machine/ScopeAbort.lean ====
section
/-! DEFINITION. The meanings of `Scope` and `Abort` (43_scope_abort.md). -/

namespace Sys2Proof.Machine

/-- `Scope` (43_scope_abort.md R130): a frame whose parent is the current one and whose arguments are the executing
activation's staging area (R131) becomes current. -/
def execScope (_imm : Bool) (s : State) : Outcome :=
  settle s do
    let (f, s₁) ← newFrame ⟨some s.act.cur, none, s.act.staging⟩ s
    return (s₁.setCur f).setPc (s.act.pc + 1)

/-- Popping the current frame (43_scope_abort.md R133): the scope reset needs a parent, the jump a parent and a resume
address; without a jump `PC` advances by one, and after one by `ABORT_SKEW`. -/
def popFrame (f : Frame) (s : State) : State :=
  match f.parent, f.resume with
  | some p, some r => (s.setCur p).setPc (r + s.cfg.abortSkew)
  | some p, none => (s.setCur p).setPc (s.act.pc + 1)
  | none, _ => s.setPc (s.act.pc + 1)

/-- `Abort` (43_scope_abort.md R132). It never ends an activation or the run (R135). -/
def execAbort (_imm : Bool) (s : State) : Outcome :=
  settle s <|
    match s.frame? s.act.cur with
    | some f => .ok (popFrame f s)
    | none => .error (.broken (.danglingFrame s.act.cur))

end Sys2Proof.Machine
end

