-- ==== Sys2Proof/Machine/Unspecified.lean ====
section
/-! DEFINITION. The meanings of the ten declared-but-unspecified opcodes (45_unspecified_opcodes.md). Each has a definition of
its own, "so that a later revision can replace one rule without touching the others". -/

namespace Sys2Proof.Machine

/-- `Nop1`: `A.PC <- A.PC + 1` and nothing else (45_unspecified_opcodes.md R165). -/
def nop1 (s : State) : Outcome := .next (s.setPc (s.act.pc + 1))

/-- `Mset` (45_unspecified_opcodes.md R155). It does not write `MEM`. -/
def execMset (_imm : Bool) (s : State) : Outcome := nop1 s

/-- `Mget` (45_unspecified_opcodes.md R156). It does not read `MEM`. -/
def execMget (_imm : Bool) (s : State) : Outcome := nop1 s

/-- `Cmp` (45_unspecified_opcodes.md R157). It compares nothing and sets no flag. -/
def execCmp (_imm : Bool) (s : State) : Outcome := nop1 s

/-- `Jump` (45_unspecified_opcodes.md R158). It is not a control transfer. -/
def execJump (_imm : Bool) (s : State) : Outcome := nop1 s

/-- `Tjmp` (45_unspecified_opcodes.md R159). It is not a conditional branch. -/
def execTjmp (_imm : Bool) (s : State) : Outcome := nop1 s

/-- `Fjmp` (45_unspecified_opcodes.md R160). It is not a conditional branch. -/
def execFjmp (_imm : Bool) (s : State) : Outcome := nop1 s

/-- `Add` (45_unspecified_opcodes.md R161). -/
def execAdd (_imm : Bool) (s : State) : Outcome := nop1 s

/-- `Sub` (45_unspecified_opcodes.md R162). -/
def execSub (_imm : Bool) (s : State) : Outcome := nop1 s

/-- `Mul` (45_unspecified_opcodes.md R163). -/
def execMul (_imm : Bool) (s : State) : Outcome := nop1 s

/-- `Div` (45_unspecified_opcodes.md R164). There is no division by zero, because nothing is divided. -/
def execDiv (_imm : Bool) (s : State) : Outcome := nop1 s

end Sys2Proof.Machine
end

