-- ==== Sys2Proof/Machine/Dispatch.lean ====
section
/-! DEFINITION. The dispatch: one arm per instruction (40_decode_dispatch.md rule R83). -/

namespace Sys2Proof.Machine

/-- The handler of each instruction (40_decode_dispatch.md R83). -/
def exec (i : Instr) (s : State) : Host.Outcome State Fault Refusal :=
  match i with
  | .call imm cs t0 t1 dst => Sys2Proof.Machine.execCall imm cs t0 t1 dst s
  | .scope imm => Sys2Proof.Machine.execScope imm s
  | .abort imm => Sys2Proof.Machine.execAbort imm s
  | .mset imm => Sys2Proof.Machine.execMset imm s
  | .mget imm => Sys2Proof.Machine.execMget imm s
  | .cmp imm => Sys2Proof.Machine.execCmp imm s
  | .jump imm => Sys2Proof.Machine.execJump imm s
  | .tjmp imm => Sys2Proof.Machine.execTjmp imm s
  | .fjmp imm => Sys2Proof.Machine.execFjmp imm s
  | .copy imm src dst => Sys2Proof.Machine.execCopy imm src dst s
  | .add imm => Sys2Proof.Machine.execAdd imm s
  | .sub imm => Sys2Proof.Machine.execSub imm s
  | .mul imm => Sys2Proof.Machine.execMul imm s
  | .div imm => Sys2Proof.Machine.execDiv imm s

end Sys2Proof.Machine
end

