-- ==== Sys2Proof/WellFormed.lean ====
section
/-! DEFINITION. Well-formedness of instructions, configurations and instruction streams. -/

namespace Sys2Proof

/-- A register id, literal or target byte is checked only when it is used (30_encoding.md R66), so the one
operand an instruction can hold that the source does not describe is `Call`'s call state: "2 to 255 are not
described by the source at all" (R70). `wellFormed` says that the call state is one of the two recognised values. -/
def Instr.wellFormed (c : Config) : Instr → Bool
  | .call _ cs _ _ _ => cs == c.csNormal || cs == c.csReserved
  | .scope _ => true
  | .abort _ => true
  | .mset _ => true
  | .mget _ => true
  | .cmp _ => true
  | .jump _ => true
  | .tjmp _ => true
  | .fjmp _ => true
  | .copy _ _ _ => true
  | .add _ => true
  | .sub _ => true
  | .mul _ => true
  | .div _ => true

/-- A limit holds at least the root activation or the root frame, which every launch makes (70_reset_and_hazards.md R203). -/
def limitOk : Option Nat → Bool
  | none => true
  | some n => 0 < n

/-- The configurations the rules speak of (DEDUCED, log 39): `Call`'s target has two bytes (30_encoding.md R65), the two call
states differ (R70), the skew is 0 or 1 (D16; a larger one would break the bound of R89), `MEM_INIT` is in canonical form, the
limits hold a launch, and the error codes are distinct and not 0 (60_exceptions.md R170). -/
def Config.wellFormed (c : Config) : Bool :=
  c.callAddrBytes == 2
    && c.csNormal != c.csReserved
    && decide (c.abortSkew ≤ 1)
    && decide c.memInit.wf
    && limitOk c.maxDepth
    && limitOk c.frameCap
    && decide ([0, c.errGeneral, c.errInvalidOpcode, c.errInvalidCallAddress].Nodup)

/-- The bound on a stream, `0 <= LEN <= 2^PC_BITS - 2` (00_scope.md R5). -/
def streamOk (c : Config) (im : List Byte) : Bool :=
  decide (im.length + 2 ≤ 2 ^ c.pcBits)

end Sys2Proof
end

