-- ==== Sys2Proof/Machine/Loop.lean ====
section
/-! DEFINITION. What a step does around the handlers (40_decode_dispatch.md): the loop test, the fetch, the end of an
activation; and the launch and the report to the host (70_reset_and_hazards.md). -/

namespace Sys2Proof.Machine

/-- The loop test: an instruction step is made while `A.PC < LEN` (40_decode_dispatch.md R81). -/
def insideStream (s : State) : Bool := decide (s.act.pc < s.len)

/-- Fetch and decode at `A.PC` (40_decode_dispatch.md R82): an invalid tag raises `InvalidOpcode` with the raw byte before
anything else; a cut-off instruction is `MC_TRUNCATED` (R88). -/
def fetch (s : State) : Except Stop Instr :=
  match decode (s.im.drop s.act.pc) with
  | .ok i _ => .ok i
  | .invalidOpcode b => .error (.error ⟨.invalidOpcode, b.setWidth 16, .none⟩)
  | .truncated => .error (.check .truncated)

/-- The root's end (40_decode_dispatch.md R87, R93): the result and the registers go to `OUT`, `STATUS` is DONE. -/
def endRun (s : State) : State :=
  { s with out := { s.out with result := s.act.ret, g := s.act.g }, status := .done }

/-- The activation-end step (40_decode_dispatch.md R87). The callee is popped, its `RET` is written to the register the
caller's `Call` names, in the caller, and the caller's `PC` advances past its `Call`. -/
def activationEnd (s : State) : Outcome :=
  match s.callers with
  | [] => .next (endRun s)
  | c :: cs =>
    match s.im[c.pc + 4]? with
    | none => .fault (.callerPastEnd c.pc)
    | some dst =>
      settle (popActivation c cs s) do
        let t ← regWrite dst s.act.ret (popActivation c cs s)
        return t.setPc (c.pc + 5)

/-- `Launch(IM, LEN, BUILTINS)` (70_reset_and_hazards.md R203): refused (`none`) while a run is in progress or when the stream is
longer than 00_scope.md R5 allows (log 41). Nothing of an earlier run is carried over but the implementation's parameters
(R200); `MEM_INIT` is one of them. -/
def launch (im : List Byte) (builtins : List String) (s : State) : Option State :=
  if s.status = .running then none
  else if streamOk s.cfg im then
    some
      { cfg := s.cfg
        im := im
        builtins := builtins
        act := freshActivation s.cfg 0 0
        callers := []
        frames := [⟨none, none, Vector.replicate 8 s.cfg.resetWord⟩]
        mem := s.cfg.memInit
        status := .running
        out := Out.reset }
  else none

/-- What the host gets after completion (70_reset_and_hazards.md R210, R212). -/
inductive Report where
  /-- IDLE or RUNNING: the host gets nothing. -/
  | nothing
  /-- DONE: `OUT.RESULT` and `OUT.G`. -/
  | done (result : Word) (g : Vector Word 32)
  /-- ERROR: the kind, the diagnostic and the depth. -/
  | error (kind : Nat) (diag : Option Diag) (depth : Nat)
  /-- UNDEFINED: the reason. -/
  | undefined (reason : McReason)
deriving DecidableEq, Repr

/-- The fields of `OUT` that are valid for `STATUS`, and no others (10_state.md R29, 70_reset_and_hazards.md R210). -/
def hostReport (s : State) : Report :=
  match s.status with
  | .idle => .nothing
  | .running => .nothing
  | .done => .done s.out.result s.out.g
  | .error => .error s.out.errKind s.out.errDiag s.out.errDepth
  | .undefined => .undefined s.out.mcReason

/-- The stream with the given bytes placed at position `p`, the bytes before and after them kept; a stream that ends
before `p` is filled up with zeros (log 38). -/
def placeAt (im : List Byte) (p : Nat) (bytes : List Byte) : List Byte :=
  im.take p ++ List.replicate (p - im.length) 0 ++ bytes ++ im.drop (p + bytes.length)

end Sys2Proof.Machine
end

