-- ==== Sys2Proof/Machine/Step.lean ====
section
/-! DEFINITION. One step of the core (40_decode_dispatch.md rules R80 to R83). -/

namespace Sys2Proof.Machine

/-- An instruction step: fetch, decode, dispatch (40_decode_dispatch.md R82, R83). -/
def instructionStep (s : State) : Outcome :=
  match fetch s with
  | .ok i => exec i s
  | .error e => stopOutcome e s

/-- One step: only while RUNNING, an instruction step or an activation end by the loop test (40_decode_dispatch.md R80, R81). -/
def step (s : State) : Host.Outcome State Fault Refusal :=
  match s.status with
  | .running => if insideStream s then instructionStep s else activationEnd s
  | .idle => .fault (.notRunning .idle)
  | .done => .fault (.notRunning .done)
  | .error => .fault (.notRunning .error)
  | .undefined => .fault (.notRunning .undefined)

/-- The state with an instruction, numbered as spec/opcode_table.json numbers it, placed in the stream at `A.PC`, and
running, so that the next step fetches and runs it (log 3, log 38). -/
def State.withFetchWord (s : State) (nbits w : Nat) : State :=
  { s with im := placeAt s.im s.act.pc (tableBytes nbits w), status := .running }

end Sys2Proof.Machine
end

