-- ==== Sys2Proof/Safety.lean ====
section
/-! DEFINITION. The invariant of reached states, and the predicates a careful claim takes as premises. -/

namespace Sys2Proof.Machine

/-! ## The invariant -/

/-- A complete `Call` of the stream begins at `p` (40_decode_dispatch.md R88, R89). -/
def callAt (im : List Byte) (p : Nat) : Bool :=
  decide (p + 4 < im.length) && (im[p]?.map tagOf == some 0)

/-- The three kinds of frame (10_state.md R25): the root frame, at position 0; a scope-created frame; a call-created frame,
whose resume address is the position just after a complete `Call` (40_decode_dispatch.md R89). A parent is made before its
child. -/
def frameOk (im : List Byte) (r : Nat) (f : Frame) : Bool :=
  match f.parent, f.resume with
  | none, none => r == 0
  | none, some _ => false
  | some p, none => decide (p < r)
  | some p, some a => decide (p < r) && decide (5 ≤ a) && callAt im (a - 5)

/-- Every frame of the store is of one of the three kinds, and there is a root frame. -/
abbrev State.framesOk (s : State) : Prop :=
  0 < s.frames.length ∧ ∀ r < s.frames.length, (s.frames[r]?.all (frameOk s.im r)) = true

/-- A suspended activation's `PC` is at its `Call`, all of which lies in the stream (40_decode_dispatch.md R87, R88). -/
def atCall (s : State) (c : Activation) : Bool := callAt s.im c.pc

/-- What holds in every reached state: the parameters and the stream are legal, `MEM` is in canonical form, the frames are of
the three kinds, every `CUR` names a frame, `PC` is within its bound (40_decode_dispatch.md R89), and every suspended
activation waits at its `Call`. -/
abbrev State.Inv (s : State) : Prop :=
  s.cfg.wellFormed = true ∧ streamOk s.cfg s.im = true ∧ s.mem.wf ∧ s.framesOk
    ∧ (∀ a ∈ s.activations, a.cur < s.frames.length)
    ∧ s.act.pc ≤ s.len + s.cfg.abortSkew
    ∧ (∀ c ∈ s.callers, atCall s c = true)

/-- The call-created frames among a frame and its ancestors. -/
def callFrames (fs : List Frame) (r : Nat) : Nat :=
  (frameChain fs r).countP fun q => fs[q]?.any fun f => f.resume.isSome

/-- An activation at depth `d` stands on at most `d` call-created frames (40_decode_dispatch.md R94). The list is a
stack of activations, newest first. -/
def callBudget (fs : List Frame) : List Activation → Prop
  | [] => True
  | a :: below => callFrames fs a.cur ≤ below.length ∧ callBudget fs below

/-! ## Words -/

/-- Every word of an activation is at most 255. -/
abbrev Activation.bytesOnly (a : Activation) : Prop :=
  (∀ v ∈ a.g.toList, v ≤ 255) ∧ (∀ v ∈ a.staging.toList, v ≤ 255) ∧ a.ret ≤ 255

/-- Every word that an instruction can read or pass on is at most 255 (44_copy.md R146). -/
abbrev State.bytesOnly (s : State) : Prop :=
  (∀ a ∈ s.activations, a.bytesOnly) ∧ ∀ f ∈ s.frames, ∀ v ∈ f.args.toList, v ≤ 255

/-! ## The outcome record -/

/-- `DIAG` and `OUT` agree with `STATUS` (10_state.md R29, 60_exceptions.md R175, R177): a running core has no diagnostic, only
the raising activation ever has one, and what the host reads is what the ended run left. -/
def State.outcomeOk (s : State) : Prop :=
  (∀ c ∈ s.callers, c.diag = none) ∧
  match s.status with
  | .idle => True
  | .running => s.act.diag = none
  | .done => s.act.diag = none ∧ s.callers = [] ∧ s.out.result = s.act.ret ∧ s.out.g = s.act.g
  | .error => ∃ d, s.act.diag = some d ∧ s.out.errDiag = some d ∧ s.out.errKind = errCode s.cfg d.kind
      ∧ s.out.errDepth = s.depth
  | .undefined => True

/-! ## Steps a careful claim leaves out (93_implementation_defined.md) -/

/-- The instruction that the next step executes, if it executes one. -/
def nextInstr (s : State) : Option Instr :=
  if s.status = .running ∧ insideStream s then
    match fetch s with
    | .ok i => some i
    | .error _ => none
  else none

/-- The next step is an `Abort` whose current frame has a resume address (U7). -/
def takesResume (s : State) : Bool :=
  match nextInstr s with
  | some (.abort _) => (s.frame? s.act.cur).any fun f => f.resume.isSome
  | _ => false

/-- The next step is an `Abort` at the root frame (U6). -/
def abortsAtRoot (s : State) : Bool :=
  match nextInstr s with
  | some (.abort _) => (s.frame? s.act.cur).any fun f => f.parent.isNone
  | _ => false

/-- The next step is one of the ten unspecified opcodes (U15). -/
def runsUnspecified (s : State) : Bool :=
  match nextInstr s with
  | some i => decide (3 ≤ i.tag ∧ i.tag ≠ 9)
  | none => false

/-- No state among `s` and its next `n` successors meets `p`. With `takesResume` this is "this run executed an `Abort` whose
current frame had a resume address" turned round (U7). -/
def runAvoids (p : State → Bool) : Nat → State → Prop
  | 0, s => p s = false
  | n + 1, s =>
    p s = false ∧
      match step s with
      | .next t => runAvoids p n t
      | .fault _ => True
      | .refused _ => True

/-- A safe run of `n` steps: every step gives a next state, so there is no machine check (60_exceptions.md R185). -/
def runsSafely : Nat → State → Prop
  | 0, _ => True
  | n + 1, s =>
    match step s with
    | .next t => runsSafely n t
    | .fault _ => False
    | .refused _ => False

end Sys2Proof.Machine
end

