-- ==== Sys2Proof/Certificates/Slice0/Obligations.lean ====
section
/-! DEFINITION. The statements about the model, for the provers. -/

open Sys2Proof Sys2Proof.Machine

/-! ## Words used by the statements -/

/-- The frame store has room for one more live frame (60_exceptions.md R188). -/
def Sys2Proof.Machine.State.roomForFrame (s : State) : Prop :=
  ∀ cap, s.cfg.frameCap = some cap → s.liveFrames < cap

/-- The activation stack has room for one more activation (42_call.md R114). -/
def Sys2Proof.Machine.State.roomForActivation (s : State) : Prop :=
  ∀ cap, s.cfg.maxDepth = some cap → s.depth + 1 < cap

/-- Register writes made one after the other. -/
def Sys2Proof.Machine.regWrites : List (Byte × Word) → State → Except Stop State
  | [], s => .ok s
  | (id, v) :: rest, s =>
    match regWrite id v s with
    | .ok t => regWrites rest t
    | .error e => .error e

/-- The value of `Copy`'s source operand: a literal, zero-extended, or a register's value (44_copy.md R145). -/
def Sys2Proof.Machine.SourceValue (imm : Bool) (src : Byte) (s : State) (v : Word) : Prop :=
  (imm = true ∧ v.toNat = src.toNat) ∨ (imm = false ∧ regRead src s = .ok v)

/-- The fault with its stopped state, if it carries one, changed by a function. -/
def Sys2Proof.Machine.Fault.mapState (φ : State → State) : Fault → Fault
  | .mcTruncated u => .mcTruncated (φ u)
  | .mcCallState u => .mcCallState (φ u)
  | .mcDepth u => .mcDepth (φ u)
  | .notRunning status => .notRunning status
  | .danglingFrame ref => .danglingFrame ref
  | .callerPastEnd pc => .callerPastEnd pc
  | .memAbsent addr => .memAbsent addr
  | .memUnwritten addr => .memUnwritten addr

/-! ## Encoding -/

/-- Decoding an encoded instruction gives it back, with the bytes after it, for every instruction and every operand value
(30_encoding.md; the tag numbers are the list order of decision D31). -/
def Obligations.DecodeOfEncodeGivesInstrBack : Prop :=
  ∀ (i : Instr) (rest : List Byte), decode (encode i ++ rest) = .ok i rest

/-- Every sequence of bytes that decodes is the encoding of what it decodes to: no two byte sequences are one instruction, so
the ignored immediate flag is kept (30_encoding.md R62, R69). -/
def Obligations.DecodedBytesAreTheEncoding : Prop :=
  ∀ (bs : List Byte) (i : Instr) (rest : List Byte), decode bs = .ok i rest → bs = encode i ++ rest

/-- The tag alone decides whether a byte is an opcode and how many operand bytes follow it, whatever those bytes are
(30_encoding.md sections 1, 4 and 5). That the decoder itself, and not the handler, finds missing operand bytes is the model's
arrangement of the operand-extent check (40_decode_dispatch.md section 3, decision D11, log 23). -/
def Obligations.TagAloneDecidesDecoding : Prop :=
  ∀ (b : Byte) (rest : List Byte),
    (14 ≤ tagOf b → decode (b :: rest) = .invalidOpcode b)
      ∧ (tagOf b < 14 → rest.length < operandBytes (tagOf b) → decode (b :: rest) = .truncated)
      ∧ (tagOf b < 14 → operandBytes (tagOf b) ≤ rest.length →
          ∃ i, decode (b :: rest) = .ok i (rest.drop (operandBytes (tagOf b)))
            ∧ i.tag = tagOf b ∧ i.imm = immOf b ∧ i.operands = rest.take (operandBytes (tagOf b)))

/-- A few words written from the tables of 30_encoding.md decode to the instructions they stand for (sanity). -/
def Obligations.WordsOfTheEncodingTablesDecode : Prop :=
  decode [0x00, 0x01, 0x34, 0x12, 0x07] = .ok (.call false 0x01 0x34 0x12 0x07) []
    ∧ decode [0x03] = .ok (.scope true) []
    ∧ decode [0x04, 0xFF] = .ok (.abort false) [0xFF]
    ∧ decode [0x13, 0x14, 0x00] = .ok (.copy true 0x14 0x00) []
    ∧ decode [0x12, 0x20, 0x28] = .ok (.copy false 0x20 0x28) []
    ∧ decode [0x1B] = .ok (.div true) []
    ∧ decode [0x1C] = .invalidOpcode 0x1C

/-! ## The step -/

/-- A step of a running core whose `PC` is inside the stream executes the instruction decoded at `PC`, and adds nothing to
it (40_decode_dispatch.md R82, R83, R85). -/
def Obligations.StepRunsDecodedInstruction : Prop :=
  ∀ (s : State) (i : Instr) (rest : List Byte),
    s.status = .running → s.act.pc < s.len → decode (s.im.drop s.act.pc) = .ok i rest → step s = exec i s

/-- An instruction placed at `PC` is what the next step runs, and nothing but the stream and `STATUS` is touched to place it
(the model's load of a program, log 3 and log 38). -/
def Obligations.PlacedInstructionRunsNext : Prop :=
  ∀ (s : State) (n w : Nat) (i : Instr), decodeTableWord n w = some i →
    step (s.withFetchWord n w) = exec i (s.withFetchWord n w)
      ∧ s.withFetchWord n w = { s with im := (s.withFetchWord n w).im, status := .running }
      ∧ (s.withFetchWord n w).im.take s.act.pc = s.im.take s.act.pc ++ List.replicate (s.act.pc - s.im.length) 0

/-- Fetching a byte from `0x1C` to `0xFF` as an opcode byte raises `InvalidOpcode` with the whole byte, and does nothing else
(30_encoding.md section 5, 40_decode_dispatch.md section 2, 60_exceptions.md sections 1 and 3). The code is decision D21 (log 32), the
record and its latch in `OUT` decisions D22 and D23 (log 33), what stays as it was decision D33 (log 34). -/
def Obligations.InvalidOpcodeByteRaises : Prop :=
  ∀ (s : State) (b : Byte), s.status = .running → s.im[s.act.pc]? = some b → 0x1C ≤ b.toNat →
    step s = .next
      { s with
        act := { s.act with diag := some ⟨.invalidOpcode, b.setWidth 16, .none⟩ }
        out := { s.out with
          errKind := s.cfg.errInvalidOpcode
          errDiag := some ⟨.invalidOpcode, b.setWidth 16, .none⟩
          errDepth := s.depth }
        status := .error }

/-- A `Copy` or a `Call` whose operand bytes would lie at or beyond `LEN` is the machine check `MC_TRUNCATED` (decision D11, log 23). -/
def Obligations.CutOffInstructionIsMachineCheck : Prop :=
  ∀ (s : State) (b : Byte), s.status = .running → s.im[s.act.pc]? = some b →
    (tagOf b = 0 ∧ s.len ≤ s.act.pc + 4) ∨ (tagOf b = 9 ∧ s.len ≤ s.act.pc + 2) →
    step s = .fault (.mcTruncated { s with out := { s.out with mcReason := .truncated }, status := .undefined })

/-- There is no step while `STATUS` is not RUNNING; the model answers the fault `notRunning` (log 10). -/
def Obligations.NoStepOutsideRunning : Prop :=
  ∀ s : State, s.status ≠ .running → step s = .fault (.notRunning s.status)

/-- Raising an error writes the diagnostic, the code, the depth and `STATUS`, leaves everything else, `PC` among it, and no
step follows; and a step that ends the run with an error does nothing but that raise, in the state before it, or, where the return-value
write of a `Call` raises, in the state that popping the callee leaves (60_exceptions.md section 3). The code is decision D21 (log 32),
the record and its latch decisions D22 and D23 (log 33). What is left beside `STATUS` and the valid fields of `OUT` is for comparing
traces of the step function and not for the host (decision D33, log 34). -/
def Obligations.RaisedErrorIsRecordedAndEndsTheRun : Prop :=
  (∀ (d : Diag) (s : State),
    raise d s =
        { s with
          act := { s.act with diag := some d }
          out := { s.out with
            errKind := (match d.kind with
              | .general => s.cfg.errGeneral
              | .invalidOpcode => s.cfg.errInvalidOpcode
              | .invalidCallAddress => s.cfg.errInvalidCallAddress)
            errDiag := some d
            errDepth := s.depth }
          status := .error }
      ∧ ∀ t, step (raise d s) ≠ .next t)
    ∧ ∀ s t : State, step s = .next t → t.status = .error →
      ∃ d, t = raise d s ∨ ∃ c cs, s.callers = c :: cs ∧ s.len ≤ s.act.pc ∧ t = raise d { s with act := c, callers := cs }

/-! ## Register paths -/

/-- `RegRead` by id (41_register_access.md R100). -/
def Obligations.RegReadFollowsIdMap : Prop :=
  ∀ (s : State) (id : Byte),
    (∀ h : id.toNat < 32, regRead id s = .ok s.act.g[id.toNat])
      ∧ (∀ (f : Frame) (h : id.toNat < 40), 32 ≤ id.toNat → s.frame? s.act.cur = some f →
          regRead id s = .ok f.args[id.toNat - 32])
      ∧ (40 ≤ id.toNat → regRead id s = .error (.error ⟨.general, id.setWidth 16, .read⟩))

/-- `RegWrite` by id (41_register_access.md R101). -/
def Obligations.RegWriteFollowsIdMap : Prop :=
  ∀ (s : State) (id : Byte) (v : Word),
    (∀ h : id.toNat < 32, regWrite id v s = .ok { s with act := { s.act with g := s.act.g.set id.toNat v } })
      ∧ (∀ h : id.toNat < 40, 32 ≤ id.toNat →
          regWrite id v s = .ok { s with act := { s.act with staging := s.act.staging.set (id.toNat - 32) v } })
      ∧ (id.toNat = 40 → regWrite id v s = .ok { s with act := { s.act with ret := v } })
      ∧ (41 ≤ id.toNat → regWrite id v s = .error (.error ⟨.general, id.setWidth 16, .write⟩))

/-- A general register reads back exactly what was written, after any number of later writes to other ids; and writing it
changes no other register, no staging slot and not the return slot (41_register_access.md R103). -/
def Obligations.GeneralRegisterRoundTrip : Prop :=
  ∀ (s : State) (id : Byte) (v : Word), id.toNat < 32 →
    ∃ t, regWrite id v s = .ok t
      ∧ (∀ (ws : List (Byte × Word)) (u : State), (∀ w ∈ ws, w.1 ≠ id) → regWrites ws t = .ok u → regRead id u = .ok v)
      ∧ (∀ j : Fin 32, j.val ≠ id.toNat → t.act.g[j] = s.act.g[j])
      ∧ t.act.staging = s.act.staging ∧ t.act.ret = s.act.ret

/-- A write to an id from 32 to 39 is seen by no read of that id in the same frame, whatever is written in between; it is seen
after a `Scope` of the same activation and in the callee of a `Call` (41_register_access.md section 2; that a `Scope` captures
the activation's own staging area is decision D14, log 21). -/
def Obligations.ArgumentIdsSeparateReadAndWrite : Prop :=
  ∀ (s : State) (id : Byte) (v : Word), 32 ≤ id.toNat → id.toNat < 40 →
    ∃ t, regWrite id v s = .ok t
      ∧ (∀ (ws : List (Byte × Word)) (u : State), regWrites ws t = .ok u → regRead id u = regRead id s)
      ∧ (∀ (imm : Bool) (u : State), exec (.scope imm) t = .next u → regRead id u = .ok v)
      ∧ (∀ (imm : Bool) (cs t0 t1 dst : Byte) (u : State), exec (.call imm cs t0 t1 dst) t = .next u →
          u.depth = t.depth + 1 → regRead id u = .ok v)

/-! ## Instructions: what each does, and where it completes -/

/-- `Copy`, whole (44_copy.md section 1): its two encodings, the cut-off instruction (decision D11, log 23), the read's error, the
write's error, and the three kinds of destination, with the literal zero-extended (decision D13, log 37). A register source from 32 to
39 where `CUR` names no frame is left to `DanglingCurrentFrameStops`. -/
def Obligations.CopyMovesSourceToDestination : Prop :=
  ∀ (s : State) (imm : Bool) (src dst : Byte),
    (s.status = .running → s.im[s.act.pc]? = some (if imm then 0x13 else 0x12) → s.im[s.act.pc + 1]? = some src →
        s.im[s.act.pc + 2]? = some dst → step s = exec (.copy imm src dst) s)
      ∧ (s.len ≤ s.act.pc + 2 →
        exec (.copy imm src dst) s =
          .fault (.mcTruncated { s with out := { s.out with mcReason := .truncated }, status := .undefined }))
      ∧ (s.act.pc + 2 < s.len → imm = false → 40 ≤ src.toNat →
          exec (.copy imm src dst) s = .next (raise ⟨.general, src.setWidth 16, .read⟩ s))
      ∧ (s.act.pc + 2 < s.len → ∀ v, SourceValue imm src s v → 41 ≤ dst.toNat →
          exec (.copy imm src dst) s = .next (raise ⟨.general, dst.setWidth 16, .write⟩ s))
      ∧ (s.act.pc + 2 < s.len → ∀ v, SourceValue imm src s v → ∀ h : dst.toNat < 32,
          exec (.copy imm src dst) s =
            .next { s with act := { s.act with g := s.act.g.set dst.toNat v, pc := s.act.pc + 3 } })
      ∧ (s.act.pc + 2 < s.len → ∀ v, SourceValue imm src s v → ∀ h : dst.toNat < 40, 32 ≤ dst.toNat →
          exec (.copy imm src dst) s =
            .next { s with act := { s.act with staging := s.act.staging.set (dst.toNat - 32) v, pc := s.act.pc + 3 } })
      ∧ (s.act.pc + 2 < s.len → ∀ v, SourceValue imm src s v → dst.toNat = 40 →
          exec (.copy imm src dst) s = .next { s with act := { s.act with ret := v, pc := s.act.pc + 3 } })

/-- Each of the ten unspecified opcodes advances `PC` by one and does nothing else, with either flag and whatever byte follows
(45_unspecified_opcodes.md R155 to R165). -/
def Obligations.UnspecifiedOpcodesOnlyAdvance : Prop :=
  ∀ (s : State) (imm : Bool) (i : Instr),
    i ∈ [.mset imm, .mget imm, .cmp imm, .jump imm, .tjmp imm, .fjmp imm, .add imm, .sub imm, .mul imm, .div imm] →
    exec i s = .next { s with act := { s.act with pc := s.act.pc + 1 } }
      ∧ (s.status = .running → s.im[s.act.pc]? = some (opcodeByte i.tag imm) →
          step s = .next { s with act := { s.act with pc := s.act.pc + 1 } })

/-- `Scope`, either byte of it, makes a frame of the current frame and the activation's own staging area (decision D14, log 21), which
stays as it is (decision D18, log 20), and enters it; with a full frame store it is `MC_DEPTH` (decision D24, log 26)
(43_scope_abort.md section 1). -/
def Obligations.ScopePushesFrame : Prop :=
  ∀ (s : State) (imm : Bool),
    (s.status = .running → s.im[s.act.pc]? = some (if imm then 0x03 else 0x02) → step s = exec (.scope imm) s)
      ∧ (s.roomForFrame →
          exec (.scope imm) s = .next
            { s with
              frames := s.frames ++ [⟨some s.act.cur, none, s.act.staging⟩]
              act := { s.act with cur := s.frames.length, pc := s.act.pc + 1 } })
      ∧ (¬ s.roomForFrame →
          exec (.scope imm) s =
            .fault (.mcDepth { s with out := { s.out with mcReason := .depth }, status := .undefined }))

/-- `Abort` on each kind of frame: at the root frame it advances `PC` only; on a scope-created frame it re-enters the parent;
on a call-created one it also jumps to the resume address plus `ABORT_SKEW` (decisions D15 and D16, log 17). It ends nothing and
raises nothing. -/
def Obligations.AbortPopsFrame : Prop :=
  ∀ (s : State) (imm : Bool) (f : Frame), s.frame? s.act.cur = some f →
    (f.parent = none → exec (.abort imm) s = .next { s with act := { s.act with pc := s.act.pc + 1 } })
      ∧ (∀ p, f.parent = some p → f.resume = none →
          exec (.abort imm) s = .next { s with act := { s.act with cur := p, pc := s.act.pc + 1 } })
      ∧ (∀ p r, f.parent = some p → f.resume = some r →
          exec (.abort imm) s = .next { s with act := { s.act with cur := p, pc := r + s.cfg.abortSkew } })

/-- Where `CUR` names no frame, in states that no run reaches, a `Copy` from an argument id and an `Abort` stop with the model's own
fault (log 13). -/
def Obligations.DanglingCurrentFrameStops : Prop :=
  ∀ (s : State) (imm : Bool) (src dst : Byte), s.frame? s.act.cur = none →
    (s.act.pc + 2 < s.len → 32 ≤ src.toNat → src.toNat < 40 →
        exec (.copy false src dst) s = .fault (.danglingFrame s.act.cur))
      ∧ exec (.abort imm) s = .fault (.danglingFrame s.act.cur)

/-- A normal `Call` of a valid target suspends the caller as it stands, makes the call-created frame of the caller's scope, the
position behind the `Call` and the caller's staging area, and starts a fresh activation at the target; without room it is
`MC_DEPTH` (42_call.md section 2; the fresh words are `RESET_WORD`, decision D19, log 4). -/
def Obligations.CallStartsCallee : Prop :=
  ∀ (s : State) (imm : Bool) (t0 t1 dst b : Byte), s.act.pc + 4 < s.len → s.cfg.csNormal ≠ s.cfg.csReserved →
    s.im[callTarget s (callTargetRaw s.cfg t0 t1)]? = some b → tagOf b = 1 →
    (s.roomForFrame → s.roomForActivation →
        exec (.call imm s.cfg.csNormal t0 t1 dst) s = .next
          { s with
            frames := s.frames ++ [⟨some s.act.cur, some (s.act.pc + 5), s.act.staging⟩]
            callers := s.act :: s.callers
            act :=
              { g := Vector.replicate 32 s.cfg.resetWord
                staging := Vector.replicate 8 s.cfg.resetWord
                ret := 0
                pc := callTarget s (callTargetRaw s.cfg t0 t1)
                base := callTarget s (callTargetRaw s.cfg t0 t1)
                cur := s.frames.length
                diag := none } })
      ∧ (¬ (s.roomForFrame ∧ s.roomForActivation) →
          exec (.call imm s.cfg.csNormal t0 t1 dst) s =
            .fault (.mcDepth { s with out := { s.out with mcReason := .depth }, status := .undefined }))

/-- A `Call` with the reserved call state advances `PC` by five and does nothing else, whatever its target and destination
(decision D10, log 24). -/
def Obligations.ReservedCallStateOnlyAdvances : Prop :=
  ∀ (s : State) (imm : Bool) (t0 t1 dst : Byte), s.act.pc + 4 < s.len →
    exec (.call imm s.cfg.csReserved t0 t1 dst) s = .next { s with act := { s.act with pc := s.act.pc + 5 } }

/-- The machine checks of `Call`: an operand beyond the stream comes first, whatever the call state, and then a call state
that is neither recognised value (decisions D11 and D7, log 16, log 23). -/
def Obligations.CallMachineChecksInOrder : Prop :=
  ∀ (s : State) (imm : Bool) (cs t0 t1 dst : Byte),
    (s.len ≤ s.act.pc + 4 →
        exec (.call imm cs t0 t1 dst) s =
          .fault (.mcTruncated { s with out := { s.out with mcReason := .truncated }, status := .undefined }))
      ∧ (s.act.pc + 4 < s.len → cs ≠ s.cfg.csNormal → cs ≠ s.cfg.csReserved →
          exec (.call imm cs t0 t1 dst) s =
            .fault (.mcCallState { s with out := { s.out with mcReason := .callState }, status := .undefined }))

/-- A normal `Call` whose target does not point to a byte whose tag is `Scope` raises `InvalidCallAddress` with the target as
written, whatever room there is: no frame, no activation, no register, `PC` unchanged (60_exceptions.md section 1). That a target outside
the stream is the same error is decision D9 (log 25); the error's code, record and what stays are log 32, log 33 and log 34. -/
def Obligations.CallOfNoScopeRaises : Prop :=
  ∀ (s : State) (imm : Bool) (t0 t1 dst : Byte), s.act.pc + 4 < s.len → s.cfg.csNormal ≠ s.cfg.csReserved →
    (∀ b, s.im[callTarget s (callTargetRaw s.cfg t0 t1)]? = some b → tagOf b ≠ 1) →
    exec (.call imm s.cfg.csNormal t0 t1 dst) s = .next
      { s with
        act := { s.act with diag := some ⟨.invalidCallAddress, callTargetRaw s.cfg t0 t1, .none⟩ }
        out := { s.out with
          errKind := s.cfg.errInvalidCallAddress
          errDiag := some ⟨.invalidCallAddress, callTargetRaw s.cfg t0 t1, .none⟩
          errDepth := s.depth }
        status := .error }

/-- `Call`'s target under each byte order and each target mode (decisions D5 and D8, log 14, log 15); the two modes agree for
an activation that starts at position 0. -/
def Obligations.CallTargetByOrderAndMode : Prop :=
  ∀ (s : State) (t0 t1 : Byte) (raw : Word),
    (s.cfg.callAddrOrder = .little → (callTargetRaw s.cfg t0 t1).toNat = t0.toNat + 256 * t1.toNat)
      ∧ (s.cfg.callAddrOrder = .big → (callTargetRaw s.cfg t0 t1).toNat = 256 * t0.toNat + t1.toNat)
      ∧ (s.cfg.callTargetMode = .absolute → callTarget s raw = raw.toNat)
      ∧ (s.cfg.callTargetMode = .callerSlice → callTarget s raw = s.act.base + raw.toNat)
      ∧ (s.act.base = 0 → callTarget s raw = raw.toNat)

/-- The end of a callee: it is popped, its `RET` goes to the destination of the caller's `Call`, in the caller, and the caller's
`PC` moves past the `Call`; a destination from 41 up raises `General` in the caller, only now (40_decode_dispatch.md section 4,
decision D32, log 31). The last clause is the model's own fault (log 13). -/
def Obligations.CalleeEndDeliversReturnValue : Prop :=
  ∀ (s : State) (c : Activation) (cs : List Activation), s.status = .running → s.len ≤ s.act.pc → s.callers = c :: cs →
    (∀ d : Byte, s.im[c.pc + 4]? = some d →
        (∀ h : d.toNat < 32, step s = .next
            { s with callers := cs, act := { c with g := c.g.set d.toNat s.act.ret, pc := c.pc + 5 } })
          ∧ (∀ h : d.toNat < 40, 32 ≤ d.toNat → step s = .next
            { s with callers := cs, act := { c with staging := c.staging.set (d.toNat - 32) s.act.ret, pc := c.pc + 5 } })
          ∧ (d.toNat = 40 → step s = .next { s with callers := cs, act := { c with ret := s.act.ret, pc := c.pc + 5 } })
          ∧ (41 ≤ d.toNat → step s = .next
            { s with
              callers := cs
              act := { c with diag := some ⟨.general, d.setWidth 16, .write⟩ }
              out := { s.out with
                errKind := s.cfg.errGeneral
                errDiag := some ⟨.general, d.setWidth 16, .write⟩
                errDepth := cs.length }
              status := .error }))
      ∧ (s.im[c.pc + 4]? = none → step s = .fault (.callerPastEnd c.pc))

/-- The end of the root activation ends the run with `DONE`, its return slot and its registers in `OUT`
(40_decode_dispatch.md section 4). -/
def Obligations.RootEndFinishesRun : Prop :=
  ∀ s : State, s.status = .running → s.len ≤ s.act.pc → s.callers = [] →
    step s = .next { s with out := { s.out with result := s.act.ret, g := s.act.g }, status := .done }

/-! ## Frames: what each instruction leaves unchanged -/

/-- What `Copy` leaves unchanged: everything but its destination and `PC`, or, when it raises, everything but the record of the
error. It stores nothing to memory. -/
def Obligations.CopyChangesOnlyItsDestination : Prop :=
  ∀ (s t : State) (imm : Bool) (src dst : Byte), exec (.copy imm src dst) s = .next t →
    (t.cfg = s.cfg ∧ t.im = s.im ∧ t.builtins = s.builtins ∧ t.callers = s.callers ∧ t.frames = s.frames)
      ∧ (∀ a, t.mem.read a = s.mem.read a)
      ∧ (∀ j : Fin 32, j.val ≠ dst.toNat → t.act.g[j] = s.act.g[j])
      ∧ (∀ j : Fin 8, j.val + 32 ≠ dst.toNat → t.act.staging[j] = s.act.staging[j])
      ∧ (dst.toNat ≠ 40 → t.act.ret = s.act.ret)
      ∧ (t.act.base = s.act.base ∧ t.act.cur = s.act.cur)
      ∧ ((t.status = s.status ∧ t.act.diag = s.act.diag ∧ t.out = s.out) ∨ ∃ d, t = raise d s)

/-- What `Scope`, `Abort` and the ten unspecified opcodes leave unchanged: every register, the staging area, the return slot,
memory, the caller's records, `STATUS` and `OUT`. Only `Scope` adds a frame, and only `Scope` and `Abort` move `CUR`. -/
def Obligations.FrameAndIdleInstructionsKeepRegisters : Prop :=
  ∀ (s t : State) (i : Instr), i.tag ≠ 0 → i.tag ≠ 9 → exec i s = .next t →
    (t.cfg = s.cfg ∧ t.im = s.im ∧ t.builtins = s.builtins ∧ t.callers = s.callers ∧ t.status = s.status ∧ t.out = s.out)
      ∧ (∀ a, t.mem.read a = s.mem.read a)
      ∧ (t.act.g = s.act.g ∧ t.act.staging = s.act.staging ∧ t.act.ret = s.act.ret ∧ t.act.base = s.act.base
          ∧ t.act.diag = s.act.diag)
      ∧ (i.tag = 1 → t.frames = s.frames ++ [⟨some s.act.cur, none, s.act.staging⟩])
      ∧ (i.tag ≠ 1 → t.frames = s.frames)
      ∧ (i.tag ≠ 1 → i.tag ≠ 2 → t.act.cur = s.act.cur)

/-- What `Call` leaves unchanged: memory, the result fields of `OUT`, and, in each of its three outcomes (skipped, raised, callee
started), the caller's whole record but for `PC` or `DIAG`. -/
def Obligations.CallKeepsCallerAndMemory : Prop :=
  ∀ (s t : State) (imm : Bool) (cs t0 t1 dst : Byte), exec (.call imm cs t0 t1 dst) s = .next t →
    (t.cfg = s.cfg ∧ t.im = s.im ∧ t.builtins = s.builtins ∧ (∀ a, t.mem.read a = s.mem.read a)
        ∧ t.out.result = s.out.result ∧ t.out.g = s.out.g ∧ t.out.mcReason = s.out.mcReason)
      ∧ ((t.callers = s.callers ∧ t.frames = s.frames ∧ t.act = { s.act with pc := s.act.pc + 5 }
            ∧ t.status = s.status ∧ t.out = s.out)
          ∨ (t.callers = s.callers ∧ t.frames = s.frames ∧ ∃ d, t.act = { s.act with diag := some d } ∧ t = raise d s)
          ∨ (t.callers = s.act :: s.callers ∧ t.status = s.status ∧ t.out = s.out
            ∧ t.frames = s.frames ++ [⟨some s.act.cur, some (s.act.pc + 5), s.act.staging⟩]))

/-- What the end of a callee leaves unchanged in the caller: everything but the one location the `Call` names, `PC`, and, when
the write raises, `DIAG` (42_call.md section 3). -/
def Obligations.ReturnChangesOnlyTheDestination : Prop :=
  ∀ (s t : State) (c : Activation) (cs : List Activation) (d : Byte), s.len ≤ s.act.pc → s.callers = c :: cs →
    s.im[c.pc + 4]? = some d → step s = .next t →
    (t.cfg = s.cfg ∧ t.im = s.im ∧ t.builtins = s.builtins ∧ t.callers = cs ∧ t.frames = s.frames
        ∧ (∀ a, t.mem.read a = s.mem.read a) ∧ t.out.result = s.out.result ∧ t.out.g = s.out.g)
      ∧ (∀ j : Fin 32, j.val ≠ d.toNat → t.act.g[j] = c.g[j])
      ∧ (∀ j : Fin 8, j.val + 32 ≠ d.toNat → t.act.staging[j] = c.staging[j])
      ∧ (d.toNat ≠ 40 → t.act.ret = c.ret)
      ∧ (t.act.base = c.base ∧ t.act.cur = c.cur)
      ∧ (d.toNat ≤ 40 → t.act.diag = c.diag ∧ t.out = s.out ∧ t.status = s.status)

/-! ## Whole-machine rules -/

/-- No step reads or writes `MEM` or the builtin table: other contents give the same step or the same fault, with the other contents
kept (20_memory.md R47, 10_state.md R31). -/
def Obligations.MemoryAndBuiltinsAreNeverTouched : Prop :=
  ∀ (s : State) (m : Memory) (b : List String),
    (∀ t, step s = .next t →
        t.mem = s.mem ∧ t.builtins = s.builtins
          ∧ step { s with mem := m, builtins := b } = .next { t with mem := m, builtins := b }
          ∧ hostReport { t with mem := m, builtins := b } = hostReport t)
      ∧ (∀ f, step s = .fault f →
          step { s with mem := m, builtins := b } = .fault (f.mapState fun u => { u with mem := m, builtins := b }))

/-- No step writes a field of an existing frame: every reference names the same frame afterwards (10_state.md R23). -/
def Obligations.FramesAreImmutable : Prop :=
  ∀ (s t : State), step s = .next t → ∀ (r : Nat) (f : Frame), s.frame? r = some f → t.frame? r = some f

/-- No step changes the instruction stream or a parameter (10_state.md R30, 20_memory.md section 8). -/
def Obligations.StreamAndParametersAreConstant : Prop :=
  ∀ (s t : State), step s = .next t → t.im = s.im ∧ t.cfg = s.cfg

/-- The stack of activations changes in two ways only: a `Call` pushes a fresh activation on the caller as it stands, and the
end of a callee pops it; no other step touches a suspended activation, and no activation's `BASE` ever changes
(10_state.md section 2). -/
def Obligations.ActivationsArePushedAndPoppedOnly : Prop :=
  ∀ (s t : State), step s = .next t →
    (t.callers = s.callers ∧ t.act.base = s.act.base)
      ∨ (t.callers = s.act :: s.callers ∧ s.act.pc < s.len ∧ (s.im[s.act.pc]?.map tagOf) = some 0
          ∧ t.act = freshActivation s.cfg t.act.base s.frames.length
          ∧ (s.im[t.act.base]?.map tagOf) = some 1)
      ∨ (∃ c, s.callers = c :: t.callers ∧ s.len ≤ s.act.pc ∧ t.act.base = c.base ∧ t.act.cur = c.cur)

/-- An instruction executed by one activation depends on no field of a suspended activation but its `CUR`, which counts live
frames: with other registers, staging areas, return slots and the rest in the callers, the step is the same
(10_state.md sections 2 and 4). -/
def Obligations.CallersAreNeverRead : Prop :=
  ∀ (s t : State) (cs : List Activation), s.act.pc < s.len → cs.map (·.cur) = s.callers.map (·.cur) → step s = .next t →
    step { s with callers := cs } =
      .next { t with callers := t.callers.take (t.callers.length - s.callers.length) ++ cs }

/-- The immediate flag changes nothing for the thirteen opcodes other than `Copy` (decision D12, log 19). -/
def Obligations.ImmediateFlagIsIgnored : Prop :=
  ∀ (s : State) (x y : Bool) (cs t0 t1 dst : Byte),
    exec (.call x cs t0 t1 dst) s = exec (.call y cs t0 t1 dst) s
      ∧ exec (.scope x) s = exec (.scope y) s ∧ exec (.abort x) s = exec (.abort y) s
      ∧ exec (.mset x) s = exec (.mset y) s ∧ exec (.mget x) s = exec (.mget y) s
      ∧ exec (.cmp x) s = exec (.cmp y) s ∧ exec (.jump x) s = exec (.jump y) s
      ∧ exec (.tjmp x) s = exec (.tjmp y) s ∧ exec (.fjmp x) s = exec (.fjmp y) s
      ∧ exec (.add x) s = exec (.add y) s ∧ exec (.sub x) s = exec (.sub y) s
      ∧ exec (.mul x) s = exec (.mul y) s ∧ exec (.div x) s = exec (.div y) s

/-- Which instruction can stop how, where `CUR` names a frame (60_exceptions.md section 3): the machine checks of `Call`, `Copy`
and `Scope`, `General` from `Copy`, `InvalidCallAddress` from `Call`; nothing from `Abort` and the ten unspecified opcodes. -/
def Obligations.WhichInstructionCanStop : Prop :=
  ∀ (i : Instr) (s : State), s.act.cur < s.frames.length →
    (∀ f, exec i s = .fault f →
        (f = .mcTruncated (stoppedBy .truncated s) ∧ (i.tag = 0 ∨ i.tag = 9) ∧ s.len ≤ s.act.pc + operandBytes i.tag)
          ∨ (f = .mcCallState (stoppedBy .callState s) ∧ i.wellFormed s.cfg = false)
          ∨ (f = .mcDepth (stoppedBy .depth s) ∧ i.tag ≤ 1 ∧ (s.cfg.maxDepth ≠ none ∨ s.cfg.frameCap ≠ none)))
      ∧ (∀ t, exec i s = .next t → t.status ≠ s.status →
          ∃ d, t = raise d s
            ∧ ((i.tag = 9 ∧ d.kind = .general ∧ 40 ≤ d.value.toNat ∧ d.value.toNat ≤ 255)
              ∨ (i.tag = 0 ∧ d.kind = .invalidCallAddress)))
      ∧ (∀ r, exec i s ≠ .refused r)

/-- A step starts in RUNNING and leaves `STATUS` RUNNING, or makes it `DONE` with the root's result, or `ERROR` with the record of
the raising activation (40_decode_dispatch.md sections 4 and 5, 60_exceptions.md section 3, 10_state.md section 5). The code is decision
D21 (log 32), the record and its latch in `OUT` decisions D22 and D23 (log 33). -/
def Obligations.RunEndsOnlyByDoneOrError : Prop :=
  ∀ (s t : State), step s = .next t →
    s.status = .running
      ∧ (t.status = .running
        ∨ (t.status = .done ∧ s.callers = [] ∧ s.len ≤ s.act.pc ∧ t.out.result = s.act.ret ∧ t.out.g = s.act.g)
        ∨ (t.status = .error ∧ ∃ d, t.act.diag = some d ∧ t.out.errDiag = some d ∧ t.out.errKind = errCode s.cfg d.kind
            ∧ t.out.errDepth = t.depth))

/-! ## Invariants -/

/-- The invariant holds at reset (under the reset values of log 3 to log 6). -/
def Obligations.ResetMeetsInvariant : Prop := State.reset.Inv

/-- Every step keeps the invariant: legal parameters and stream, memory in canonical form, frames of the three kinds with links
to older frames only and resume addresses behind a complete `Call`, every `CUR` a frame, `PC` at most `LEN` plus the skew, every
suspended activation at its `Call` (10_state.md section 3, 40_decode_dispatch.md section 4). -/
def Obligations.StepKeepsInvariant : Prop :=
  ∀ (s t : State), s.Inv → step s = .next t → t.Inv

/-- In every state that meets the invariant `PC` fits its `PC_BITS` bits, and so does the `PC` after any one step
(10_state.md section 2). -/
def Obligations.PcNeverWraps : Prop :=
  ∀ (s t : State), s.Inv → step s = .next t → s.act.pc < 2 ^ s.cfg.pcBits ∧ t.act.pc < 2 ^ t.cfg.pcBits

/-- Every step keeps it so that an activation at depth `d` stands on at most `d` call-created frames, which is why it takes a resume
address at most `d` times (40_decode_dispatch.md section 5). -/
def Obligations.StepKeepsResumeBudget : Prop :=
  ∀ (s t : State), s.Inv → callBudget s.frames s.activations → step s = .next t → callBudget t.frames t.activations

/-- The root activation never takes a resume address (40_decode_dispatch.md section 5, 43_scope_abort.md section 2). -/
def Obligations.RootNeverTakesResume : Prop :=
  ∀ s : State, s.Inv → callBudget s.frames s.activations → s.callers = [] → takesResume s = false

/-- In every state that meets the invariant the root frame is reached from every frame by parent links (10_state.md section 3). -/
def Obligations.RootFrameIsReachable : Prop :=
  ∀ (s : State) (r : Nat), s.Inv → r < s.frames.length → (frameChain s.frames r).getLast? = some 0

/-- No step makes a word above 255: with a reset word up to 255, every register, staging slot, return slot and argument stays at
most 255 (44_copy.md section 1). -/
def Obligations.StepKeepsWordsBelow256 : Prop :=
  ∀ (s t : State), s.cfg.resetWord ≤ 255 → s.bytesOnly → step s = .next t → t.bytesOnly

/-- Every step keeps `DIAG` and `OUT` in agreement with `STATUS`: only the raising activation has a diagnostic, the callers' stay
`EMPTY`, and what the host reads is what the ended run left (60_exceptions.md section 3). The code is decision D21 (log 32), the
record and its latch in `OUT` decisions D22 and D23 (log 33). -/
def Obligations.StepKeepsOutcomeRecord : Prop :=
  ∀ (s t : State), s.outcomeOk → step s = .next t → t.outcomeOk

/-- A finite `MAX_DEPTH` is never passed (60_exceptions.md section 5). -/
def Obligations.DepthLimitIsKept : Prop :=
  ∀ (s t : State) (n : Nat), s.cfg.maxDepth = some n → s.activations.length ≤ n → step s = .next t →
    t.activations.length ≤ n

/-- A finite `FRAME_CAP` is never passed by the live frames (60_exceptions.md section 5, 10_state.md section 3). -/
def Obligations.LiveFrameLimitIsKept : Prop :=
  ∀ (s t : State) (n : Nat), s.Inv → s.cfg.frameCap = some n → s.liveFrames ≤ n → step s = .next t → t.liveFrames ≤ n

/-! ## Runs -/

/-- Every instruction step that goes on moves `PC` forward in the same activation, but for an `Abort` that takes a resume address
and a `Call` that starts a callee (40_decode_dispatch.md section 5). -/
def Obligations.InstructionsMoveForward : Prop :=
  ∀ (s t : State), s.act.pc < s.len → takesResume s = false → step s = .next t → t.status = .running →
    (t.callers = s.callers ∧ s.act.pc < t.act.pc) ∨ t.callers = s.act :: s.callers

/-- A root activation that meets no `Call` ends within the length of the stream: from a running root with no `Call` byte in the
stream and no resume address in the frame store, the run stops after at most `LEN - PC + 1` steps (40_decode_dispatch.md section 5). -/
def Obligations.RunWithoutCallsEnds : Prop :=
  ∀ s : State, s.status = .running → s.callers = [] → (∀ b ∈ s.im, tagOf b ≠ 0) →
    (∀ f ∈ s.frames, f.resume = none) →
    ∃ k, k ≤ s.len - s.act.pc + 1 ∧
      ((∃ f, Sys2Proof.core.run k s = .fault f) ∨ ∃ t : State, Sys2Proof.core.run k s = .next t ∧ t.status ≠ .running)

/-- Scenario C as a property: a `Scope` byte and an `Abort` byte in a row leave the current scope, the registers and memory as they
were and move `PC` by two; the one frame made is no longer live (43_scope_abort.md section 2). -/
def Obligations.ScopeThenAbortRestoresScope : Prop :=
  ∀ (s : State) (b c : Byte), s.Inv → s.status = .running → s.roomForFrame →
    s.im[s.act.pc]? = some b → tagOf b = 1 → s.im[s.act.pc + 1]? = some c → tagOf c = 2 →
    ∃ u t, step s = .next u ∧ step u = .next t
      ∧ t = { s with
          frames := s.frames ++ [⟨some s.act.cur, none, s.act.staging⟩]
          act := { s.act with pc := s.act.pc + 2 } }
      ∧ t.live s.frames.length = false

/-- A callee's entry `Scope` hides the inbound arguments and an `Abort` shows them again: before the `Scope` ids 32 to 39 read the
caller's staged words, after it the reset word, after the `Abort` the staged words (42_call.md section 3, decision D14, log 21). -/
def Obligations.EntryScopeHidesArguments : Prop :=
  ∀ (s u w : State) (x y z : Bool) (cs t0 t1 dst : Byte), exec (.call x cs t0 t1 dst) s = .next u → u.depth = s.depth + 1 →
    exec (.scope y) u = .next w →
    ∃ v, exec (.abort z) w = .next v ∧
      ∀ k : Fin 8,
        regRead (BitVec.ofNat 8 (32 + k.val)) u = .ok s.act.staging[k]
          ∧ regRead (BitVec.ofNat 8 (32 + k.val)) w = .ok s.cfg.resetWord
          ∧ regRead (BitVec.ofNat 8 (32 + k.val)) v = .ok s.act.staging[k]

/-! ## The host -/

/-- A launch from any status but RUNNING makes everything anew (70_reset_and_hazards.md section 1; `RESET_WORD` is decision D19,
log 4; `MEM_INIT` is decision D20, log 6; a stream longer than the parameters allow is refused, log 41): nothing of the earlier
run but the parameters is carried over. -/
def Obligations.LaunchMakesEverythingAnew : Prop :=
  ∀ (s : State) (im : List Byte) (b : List String),
    (s.status = .running → launch im b s = none)
      ∧ (s.status ≠ .running → 2 ^ s.cfg.pcBits < im.length + 2 → launch im b s = none)
      ∧ (s.status ≠ .running → im.length + 2 ≤ 2 ^ s.cfg.pcBits →
          ∃ t, launch im b s = some t
            ∧ t.cfg = s.cfg ∧ t.im = im ∧ t.builtins = b ∧ t.status = .running ∧ t.callers = []
            ∧ t.frames = [⟨none, none, Vector.replicate 8 s.cfg.resetWord⟩] ∧ t.mem = s.cfg.memInit
            ∧ t.act =
              { g := Vector.replicate 32 s.cfg.resetWord, staging := Vector.replicate 8 s.cfg.resetWord, ret := 0
                pc := 0, base := 0, cur := 0, diag := none }
            ∧ ∀ s' : State, s'.status ≠ .running → s'.cfg = s.cfg → launch im b s' = some t)

/-- Every launch under a legal configuration (log 39), with whatever program, gives a state that meets every invariant of the section
above: the base case of each of them for a run (70_reset_and_hazards.md section 1). -/
def Obligations.LaunchMeetsEveryInvariant : Prop :=
  ∀ (s t : State) (im : List Byte) (b : List String), s.cfg.wellFormed = true → launch im b s = some t →
    t.Inv ∧ callBudget t.frames t.activations ∧ t.outcomeOk
      ∧ (t.cfg.resetWord ≤ 255 → t.bytesOnly)
      ∧ (∀ n, t.cfg.maxDepth = some n → t.activations.length ≤ n)
      ∧ (∀ n, t.cfg.frameCap = some n → t.liveFrames ≤ n)

/-- The reset state is the launch of the empty stream after power-on (the model's choice, log 3). -/
def Obligations.ResetIsTheLaunchOfNoProgram : Prop :=
  launch [] [] (State.powerOn Config.default) = some State.reset

/-- What the host gets: the valid fields of `OUT` after completion, nothing before (70_reset_and_hazards.md section 2). The
code is decision D21 (log 32), the record and its latch decisions D22 and D23 (log 33). -/
def Obligations.HostReadsOnlyValidFields : Prop :=
  ∀ (s : State) (d : Diag) (r : McReason),
    hostReport (endRun s) = .done s.act.ret s.act.g
      ∧ hostReport (raise d s) = .error (errCode s.cfg d.kind) (some d) s.depth
      ∧ hostReport (stoppedBy r s) = .undefined r
      ∧ (s.status = .running ∨ s.status = .idle → hostReport s = .nothing)

/-! ## Data memory, which no instruction calls -/

/-- `MemWrite` inside `MEM` succeeds, keeps the canonical form, reads back by `MemRead`, and leaves every other byte; outside `MEM` both
stop, with an access of no bytes too (20_memory.md section 5; bytes with no byte order, log 40; what an access outside does, log 43). -/
def Obligations.MemWriteReadsBack : Prop :=
  ∀ (s : State) (a : Nat) (bs : List Byte),
    (a + bs.length ≤ memSize →
        ∃ t, memWrite a bs s = .ok t
          ∧ memRead a bs.length t = .ok bs
          ∧ (s.mem.wf → t.mem.wf)
          ∧ ∀ x, x < a ∨ a + bs.length ≤ x → t.mem.read x = s.mem.read x)
      ∧ (memSize < a + bs.length → memWrite a bs s = .error (.memAbsent a))
      ∧ (∀ n, memSize < a + n → memRead a n s = .error (.memAbsent a))
end

