-- ==== Sys2Proof/Laws/Encoding.lean ====
section
/-! SUPPORT. The opcode byte and its two fields (30_encoding.md rule R61). -/

namespace Sys2Proof

/-- The tag is the byte shifted right by one. -/
theorem tagOf_eq (b : Byte) : tagOf b = b.toNat / 2 := by
  simp [tagOf, Nat.shiftRight_eq_div_pow]

/-- The flag is the byte's lowest bit. -/
theorem immOf_toNat (b : Byte) : (immOf b).toNat = b.toNat % 2 := by
  simp only [immOf, BitVec.getLsbD, Nat.testBit_zero]
  rcases Nat.mod_two_eq_zero_or_one b.toNat with h | h <;> simp [h]

theorem tagOf_lt (b : Byte) : tagOf b < 128 := by
  have := b.isLt
  rw [tagOf_eq]
  omega

/-- The fields of an opcode byte are what it was made of. -/
theorem tagOf_opcodeByte {tag : Nat} (imm : Bool) (h : tag < 128) : tagOf (opcodeByte tag imm) = tag := by
  have := imm.toNat_lt
  simp only [tagOf_eq, opcodeByte, BitVec.toNat_ofNat]
  omega

theorem immOf_opcodeByte (tag : Nat) (imm : Bool) : immOf (opcodeByte tag imm) = imm := by
  have h := immOf_toNat (opcodeByte tag imm)
  have := imm.toNat_lt
  simp only [opcodeByte, BitVec.toNat_ofNat] at h
  rw [Nat.mod_mod_of_dvd _ (by decide : 2 ∣ 2 ^ 8)] at h
  have h' : (immOf (opcodeByte tag imm)).toNat = imm.toNat := by
    rw [opcodeByte, h]
    omega
  revert h'
  cases immOf (opcodeByte tag imm) <;> cases imm <;> simp

/-- An opcode byte is made of its fields. -/
theorem opcodeByte_fields (b : Byte) : opcodeByte (tagOf b) (immOf b) = b := by
  apply BitVec.eq_of_toNat_eq
  have := b.isLt
  simp only [opcodeByte, BitVec.toNat_ofNat, tagOf_eq, immOf_toNat]
  omega

/-- An instruction's tag is one of the fourteen. -/
theorem Instr.tag_lt (i : Instr) : i.tag < 14 := by
  cases i <;> simp [Instr.tag]

end Sys2Proof
end

