-- ==== Sys2Proof/Laws/State.lean ====
section
/-! SUPPORT. One lemma per field per update of the state, all true by rfl, so that no proof unfolds an update. -/

namespace Sys2Proof.Machine

variable (s : State)

/-! ## Fields of the running activation -/

@[simp] theorem State.setPc_cfg (t : Nat) : (s.setPc t).cfg = s.cfg := rfl
@[simp] theorem State.setPc_im (t : Nat) : (s.setPc t).im = s.im := rfl
@[simp] theorem State.setPc_builtins (t : Nat) : (s.setPc t).builtins = s.builtins := rfl
@[simp] theorem State.setPc_callers (t : Nat) : (s.setPc t).callers = s.callers := rfl
@[simp] theorem State.setPc_frames (t : Nat) : (s.setPc t).frames = s.frames := rfl
@[simp] theorem State.setPc_mem (t : Nat) : (s.setPc t).mem = s.mem := rfl
@[simp] theorem State.setPc_status (t : Nat) : (s.setPc t).status = s.status := rfl
@[simp] theorem State.setPc_out (t : Nat) : (s.setPc t).out = s.out := rfl
@[simp] theorem State.setPc_act_g (t : Nat) : (s.setPc t).act.g = s.act.g := rfl
@[simp] theorem State.setPc_act_staging (t : Nat) : (s.setPc t).act.staging = s.act.staging := rfl
@[simp] theorem State.setPc_act_ret (t : Nat) : (s.setPc t).act.ret = s.act.ret := rfl
@[simp] theorem State.setPc_act_pc (t : Nat) : (s.setPc t).act.pc = t := rfl
@[simp] theorem State.setPc_act_base (t : Nat) : (s.setPc t).act.base = s.act.base := rfl
@[simp] theorem State.setPc_act_cur (t : Nat) : (s.setPc t).act.cur = s.act.cur := rfl
@[simp] theorem State.setPc_act_diag (t : Nat) : (s.setPc t).act.diag = s.act.diag := rfl
@[simp] theorem State.setPc_len (t : Nat) : (s.setPc t).len = s.len := rfl
@[simp] theorem State.setPc_depth (t : Nat) : (s.setPc t).depth = s.depth := rfl
@[simp] theorem State.setPc_frame? (t : Nat) (r : Nat) : (s.setPc t).frame? r = s.frame? r := rfl

@[simp] theorem State.setCur_cfg (f : Nat) : (s.setCur f).cfg = s.cfg := rfl
@[simp] theorem State.setCur_im (f : Nat) : (s.setCur f).im = s.im := rfl
@[simp] theorem State.setCur_builtins (f : Nat) : (s.setCur f).builtins = s.builtins := rfl
@[simp] theorem State.setCur_callers (f : Nat) : (s.setCur f).callers = s.callers := rfl
@[simp] theorem State.setCur_frames (f : Nat) : (s.setCur f).frames = s.frames := rfl
@[simp] theorem State.setCur_mem (f : Nat) : (s.setCur f).mem = s.mem := rfl
@[simp] theorem State.setCur_status (f : Nat) : (s.setCur f).status = s.status := rfl
@[simp] theorem State.setCur_out (f : Nat) : (s.setCur f).out = s.out := rfl
@[simp] theorem State.setCur_act_g (f : Nat) : (s.setCur f).act.g = s.act.g := rfl
@[simp] theorem State.setCur_act_staging (f : Nat) : (s.setCur f).act.staging = s.act.staging := rfl
@[simp] theorem State.setCur_act_ret (f : Nat) : (s.setCur f).act.ret = s.act.ret := rfl
@[simp] theorem State.setCur_act_pc (f : Nat) : (s.setCur f).act.pc = s.act.pc := rfl
@[simp] theorem State.setCur_act_base (f : Nat) : (s.setCur f).act.base = s.act.base := rfl
@[simp] theorem State.setCur_act_cur (f : Nat) : (s.setCur f).act.cur = f := rfl
@[simp] theorem State.setCur_act_diag (f : Nat) : (s.setCur f).act.diag = s.act.diag := rfl
@[simp] theorem State.setCur_len (f : Nat) : (s.setCur f).len = s.len := rfl
@[simp] theorem State.setCur_depth (f : Nat) : (s.setCur f).depth = s.depth := rfl
@[simp] theorem State.setCur_frame? (f : Nat) (r : Nat) : (s.setCur f).frame? r = s.frame? r := rfl

@[simp] theorem State.setG_cfg (i : Fin 32) (v : Word) : (s.setG i v).cfg = s.cfg := rfl
@[simp] theorem State.setG_im (i : Fin 32) (v : Word) : (s.setG i v).im = s.im := rfl
@[simp] theorem State.setG_builtins (i : Fin 32) (v : Word) : (s.setG i v).builtins = s.builtins := rfl
@[simp] theorem State.setG_callers (i : Fin 32) (v : Word) : (s.setG i v).callers = s.callers := rfl
@[simp] theorem State.setG_frames (i : Fin 32) (v : Word) : (s.setG i v).frames = s.frames := rfl
@[simp] theorem State.setG_mem (i : Fin 32) (v : Word) : (s.setG i v).mem = s.mem := rfl
@[simp] theorem State.setG_status (i : Fin 32) (v : Word) : (s.setG i v).status = s.status := rfl
@[simp] theorem State.setG_out (i : Fin 32) (v : Word) : (s.setG i v).out = s.out := rfl
@[simp] theorem State.setG_act_g (i : Fin 32) (v : Word) : (s.setG i v).act.g = s.act.g.set i v := rfl
@[simp] theorem State.setG_act_staging (i : Fin 32) (v : Word) : (s.setG i v).act.staging = s.act.staging := rfl
@[simp] theorem State.setG_act_ret (i : Fin 32) (v : Word) : (s.setG i v).act.ret = s.act.ret := rfl
@[simp] theorem State.setG_act_pc (i : Fin 32) (v : Word) : (s.setG i v).act.pc = s.act.pc := rfl
@[simp] theorem State.setG_act_base (i : Fin 32) (v : Word) : (s.setG i v).act.base = s.act.base := rfl
@[simp] theorem State.setG_act_cur (i : Fin 32) (v : Word) : (s.setG i v).act.cur = s.act.cur := rfl
@[simp] theorem State.setG_act_diag (i : Fin 32) (v : Word) : (s.setG i v).act.diag = s.act.diag := rfl
@[simp] theorem State.setG_len (i : Fin 32) (v : Word) : (s.setG i v).len = s.len := rfl
@[simp] theorem State.setG_depth (i : Fin 32) (v : Word) : (s.setG i v).depth = s.depth := rfl
@[simp] theorem State.setG_frame? (i : Fin 32) (v : Word) (r : Nat) : (s.setG i v).frame? r = s.frame? r := rfl

@[simp] theorem State.setStaging_cfg (i : Fin 8) (v : Word) : (s.setStaging i v).cfg = s.cfg := rfl
@[simp] theorem State.setStaging_im (i : Fin 8) (v : Word) : (s.setStaging i v).im = s.im := rfl
@[simp] theorem State.setStaging_builtins (i : Fin 8) (v : Word) : (s.setStaging i v).builtins = s.builtins := rfl
@[simp] theorem State.setStaging_callers (i : Fin 8) (v : Word) : (s.setStaging i v).callers = s.callers := rfl
@[simp] theorem State.setStaging_frames (i : Fin 8) (v : Word) : (s.setStaging i v).frames = s.frames := rfl
@[simp] theorem State.setStaging_mem (i : Fin 8) (v : Word) : (s.setStaging i v).mem = s.mem := rfl
@[simp] theorem State.setStaging_status (i : Fin 8) (v : Word) : (s.setStaging i v).status = s.status := rfl
@[simp] theorem State.setStaging_out (i : Fin 8) (v : Word) : (s.setStaging i v).out = s.out := rfl
@[simp] theorem State.setStaging_act_g (i : Fin 8) (v : Word) : (s.setStaging i v).act.g = s.act.g := rfl
@[simp] theorem State.setStaging_act_staging (i : Fin 8) (v : Word) : (s.setStaging i v).act.staging = s.act.staging.set i v := rfl
@[simp] theorem State.setStaging_act_ret (i : Fin 8) (v : Word) : (s.setStaging i v).act.ret = s.act.ret := rfl
@[simp] theorem State.setStaging_act_pc (i : Fin 8) (v : Word) : (s.setStaging i v).act.pc = s.act.pc := rfl
@[simp] theorem State.setStaging_act_base (i : Fin 8) (v : Word) : (s.setStaging i v).act.base = s.act.base := rfl
@[simp] theorem State.setStaging_act_cur (i : Fin 8) (v : Word) : (s.setStaging i v).act.cur = s.act.cur := rfl
@[simp] theorem State.setStaging_act_diag (i : Fin 8) (v : Word) : (s.setStaging i v).act.diag = s.act.diag := rfl
@[simp] theorem State.setStaging_len (i : Fin 8) (v : Word) : (s.setStaging i v).len = s.len := rfl
@[simp] theorem State.setStaging_depth (i : Fin 8) (v : Word) : (s.setStaging i v).depth = s.depth := rfl
@[simp] theorem State.setStaging_frame? (i : Fin 8) (v : Word) (r : Nat) : (s.setStaging i v).frame? r = s.frame? r := rfl

@[simp] theorem State.setRet_cfg (v : Word) : (s.setRet v).cfg = s.cfg := rfl
@[simp] theorem State.setRet_im (v : Word) : (s.setRet v).im = s.im := rfl
@[simp] theorem State.setRet_builtins (v : Word) : (s.setRet v).builtins = s.builtins := rfl
@[simp] theorem State.setRet_callers (v : Word) : (s.setRet v).callers = s.callers := rfl
@[simp] theorem State.setRet_frames (v : Word) : (s.setRet v).frames = s.frames := rfl
@[simp] theorem State.setRet_mem (v : Word) : (s.setRet v).mem = s.mem := rfl
@[simp] theorem State.setRet_status (v : Word) : (s.setRet v).status = s.status := rfl
@[simp] theorem State.setRet_out (v : Word) : (s.setRet v).out = s.out := rfl
@[simp] theorem State.setRet_act_g (v : Word) : (s.setRet v).act.g = s.act.g := rfl
@[simp] theorem State.setRet_act_staging (v : Word) : (s.setRet v).act.staging = s.act.staging := rfl
@[simp] theorem State.setRet_act_ret (v : Word) : (s.setRet v).act.ret = v := rfl
@[simp] theorem State.setRet_act_pc (v : Word) : (s.setRet v).act.pc = s.act.pc := rfl
@[simp] theorem State.setRet_act_base (v : Word) : (s.setRet v).act.base = s.act.base := rfl
@[simp] theorem State.setRet_act_cur (v : Word) : (s.setRet v).act.cur = s.act.cur := rfl
@[simp] theorem State.setRet_act_diag (v : Word) : (s.setRet v).act.diag = s.act.diag := rfl
@[simp] theorem State.setRet_len (v : Word) : (s.setRet v).len = s.len := rfl
@[simp] theorem State.setRet_depth (v : Word) : (s.setRet v).depth = s.depth := rfl
@[simp] theorem State.setRet_frame? (v : Word) (r : Nat) : (s.setRet v).frame? r = s.frame? r := rfl

/-! ## Errors, machine checks, the ends of a run and of an activation -/

@[simp] theorem raise_cfg (d : Diag) : (raise d s).cfg = s.cfg := rfl
@[simp] theorem raise_im (d : Diag) : (raise d s).im = s.im := rfl
@[simp] theorem raise_builtins (d : Diag) : (raise d s).builtins = s.builtins := rfl
@[simp] theorem raise_callers (d : Diag) : (raise d s).callers = s.callers := rfl
@[simp] theorem raise_frames (d : Diag) : (raise d s).frames = s.frames := rfl
@[simp] theorem raise_mem (d : Diag) : (raise d s).mem = s.mem := rfl
@[simp] theorem raise_status (d : Diag) : (raise d s).status = .error := rfl
@[simp] theorem raise_out (d : Diag) : (raise d s).out = { s.out with errKind := errCode s.cfg d.kind, errDiag := some d, errDepth := s.depth } := rfl
@[simp] theorem raise_act_g (d : Diag) : (raise d s).act.g = s.act.g := rfl
@[simp] theorem raise_act_staging (d : Diag) : (raise d s).act.staging = s.act.staging := rfl
@[simp] theorem raise_act_ret (d : Diag) : (raise d s).act.ret = s.act.ret := rfl
@[simp] theorem raise_act_pc (d : Diag) : (raise d s).act.pc = s.act.pc := rfl
@[simp] theorem raise_act_base (d : Diag) : (raise d s).act.base = s.act.base := rfl
@[simp] theorem raise_act_cur (d : Diag) : (raise d s).act.cur = s.act.cur := rfl
@[simp] theorem raise_act_diag (d : Diag) : (raise d s).act.diag = some d := rfl
@[simp] theorem raise_len (d : Diag) : (raise d s).len = s.len := rfl
@[simp] theorem raise_depth (d : Diag) : (raise d s).depth = s.depth := rfl

@[simp] theorem stoppedBy_cfg (r : McReason) : (stoppedBy r s).cfg = s.cfg := rfl
@[simp] theorem stoppedBy_im (r : McReason) : (stoppedBy r s).im = s.im := rfl
@[simp] theorem stoppedBy_builtins (r : McReason) : (stoppedBy r s).builtins = s.builtins := rfl
@[simp] theorem stoppedBy_callers (r : McReason) : (stoppedBy r s).callers = s.callers := rfl
@[simp] theorem stoppedBy_frames (r : McReason) : (stoppedBy r s).frames = s.frames := rfl
@[simp] theorem stoppedBy_mem (r : McReason) : (stoppedBy r s).mem = s.mem := rfl
@[simp] theorem stoppedBy_status (r : McReason) : (stoppedBy r s).status = .undefined := rfl
@[simp] theorem stoppedBy_out (r : McReason) : (stoppedBy r s).out = { s.out with mcReason := r } := rfl
@[simp] theorem stoppedBy_act (r : McReason) : (stoppedBy r s).act = s.act := rfl

@[simp] theorem endRun_cfg : (endRun s).cfg = s.cfg := rfl
@[simp] theorem endRun_im : (endRun s).im = s.im := rfl
@[simp] theorem endRun_builtins : (endRun s).builtins = s.builtins := rfl
@[simp] theorem endRun_callers : (endRun s).callers = s.callers := rfl
@[simp] theorem endRun_frames : (endRun s).frames = s.frames := rfl
@[simp] theorem endRun_mem : (endRun s).mem = s.mem := rfl
@[simp] theorem endRun_status : (endRun s).status = .done := rfl
@[simp] theorem endRun_out : (endRun s).out = { s.out with result := s.act.ret, g := s.act.g } := rfl
@[simp] theorem endRun_act : (endRun s).act = s.act := rfl

@[simp] theorem popActivation_cfg (c : Activation) (cs : List Activation) : (popActivation c cs s).cfg = s.cfg := rfl
@[simp] theorem popActivation_im (c : Activation) (cs : List Activation) : (popActivation c cs s).im = s.im := rfl
@[simp] theorem popActivation_builtins (c : Activation) (cs : List Activation) : (popActivation c cs s).builtins = s.builtins := rfl
@[simp] theorem popActivation_callers (c : Activation) (cs : List Activation) : (popActivation c cs s).callers = cs := rfl
@[simp] theorem popActivation_frames (c : Activation) (cs : List Activation) : (popActivation c cs s).frames = s.frames := rfl
@[simp] theorem popActivation_mem (c : Activation) (cs : List Activation) : (popActivation c cs s).mem = s.mem := rfl
@[simp] theorem popActivation_status (c : Activation) (cs : List Activation) : (popActivation c cs s).status = s.status := rfl
@[simp] theorem popActivation_out (c : Activation) (cs : List Activation) : (popActivation c cs s).out = s.out := rfl
@[simp] theorem popActivation_act (c : Activation) (cs : List Activation) : (popActivation c cs s).act = c := rfl
@[simp] theorem popActivation_len (c : Activation) (cs : List Activation) : (popActivation c cs s).len = s.len := rfl

end Sys2Proof.Machine
end

