-- ==== Sys2Proof/Laws/Ops.lean ====
section
/-! SUPPORT. What each shared operation can do, said once. -/

namespace Sys2Proof.Machine

variable {s t : State}

/-! ## Sequencing inside a step -/

@[simp] theorem bind_ok {α β : Type} (a : α) (f : α → Except Stop β) : (Except.ok a >>= f) = f a := rfl

@[simp] theorem bind_error {α β : Type} (e : Stop) (f : α → Except Stop β) :
    ((Except.error e : Except Stop α) >>= f) = .error e := rfl

@[simp] theorem pure_ok {α : Type} (a : α) : (pure a : Except Stop α) = .ok a := rfl

/-- A sequence gives a value only when its first part does. -/
theorem bind_eq_ok {α β : Type} {x : Except Stop α} {f : α → Except Stop β} {b : β} (h : (x >>= f) = .ok b) :
    ∃ a, x = .ok a ∧ f a = .ok b := by
  cases x with
  | ok a => exact ⟨a, rfl, h⟩
  | error e => cases h

/-- A sequence stops where its first or its second part stops. -/
theorem bind_eq_error {α β : Type} {x : Except Stop α} {f : α → Except Stop β} {e : Stop} (h : (x >>= f) = .error e) :
    x = .error e ∨ ∃ a, x = .ok a ∧ f a = .error e := by
  cases x with
  | ok a => exact .inr ⟨a, rfl, h⟩
  | error e' =>
    cases h
    exact .inl rfl

@[simp] theorem settle_ok (t : State) : settle s (.ok t) = .next t := rfl

@[simp] theorem settle_error (d : Diag) : settle s (.error (.error d)) = .next (raise d s) := rfl

@[simp] theorem settle_check (r : McReason) : settle s (.error (.check r)) = .fault (machineCheck r s) := rfl

@[simp] theorem settle_broken (f : Fault) : settle s (.error (.broken f)) = .fault f := rfl

/-- A step gives a next state when its effects succeed or an error is raised. -/
theorem settle_next {r : Except Stop State} (h : settle s r = .next t) :
    r = .ok t ∨ ∃ d, r = .error (.error d) ∧ t = raise d s := by
  rcases r with (d | c | f) | u
  · cases h
    exact .inr ⟨d, rfl, rfl⟩
  · cases h
  · cases h
  · cases h
    exact .inl rfl

/-- A step faults when a machine check is made or the state is broken. -/
theorem settle_fault {r : Except Stop State} {f : Fault} (h : settle s r = .fault f) :
    (∃ c, r = .error (.check c) ∧ f = machineCheck c s) ∨ r = .error (.broken f) := by
  rcases r with (d | c | g) | u
  · cases h
  · cases h
    exact .inl ⟨c, rfl, rfl⟩
  · cases h
    exact .inr rfl
  · cases h

/-! ## Operand extent and operands -/

theorem operandsInside_ok {n : Nat} {u : Unit} (h : operandsInside n s = .ok u) : s.act.pc + n < s.len := by
  unfold operandsInside at h
  split at h
  · assumption
  · cases h

theorem operandsInside_of_lt {n : Nat} (h : s.act.pc + n < s.len) : operandsInside n s = .ok () := by
  simp [operandsInside, h]

theorem operandsInside_of_le {n : Nat} (h : s.len ≤ s.act.pc + n) :
    operandsInside n s = .error (.check .truncated) := by
  simp [operandsInside, Nat.not_lt.mpr h]

/-! ## Register paths -/

/-- What a register read that gives a value has read. -/
theorem regRead_ok {id : Byte} {v : Word} (h : regRead id s = .ok v) :
    (∃ h : id.toNat < 32, v = s.act.g[id.toNat]) ∨
      (∃ (f : Frame) (h : id.toNat < 40), 32 ≤ id.toNat ∧ s.frame? s.act.cur = some f ∧ v = f.args[id.toNat - 32]) := by
  unfold regRead at h
  split at h
  · exact .inl ⟨‹_›, by simpa [eq_comm] using h⟩
  · split at h
    · split at h
      · exact .inr ⟨_, ‹_›, by omega, ‹_›, by simpa [eq_comm] using h⟩
      · cases h
    · cases h

/-- Why a register read gives no value. -/
theorem regRead_error {id : Byte} {e : Stop} (h : regRead id s = .error e) :
    (40 ≤ id.toNat ∧ e = .error (badRegister id .read)) ∨
      (s.frame? s.act.cur = none ∧ 32 ≤ id.toNat ∧ id.toNat < 40 ∧ e = .broken (.danglingFrame s.act.cur)) := by
  unfold regRead at h
  split at h
  · cases h
  · split at h
    · split at h
      · cases h
      · exact .inr ⟨‹_›, by omega, ‹_›, by simpa [eq_comm] using h⟩
    · exact .inl ⟨by omega, by simpa [eq_comm] using h⟩

/-- What a register write that succeeds has written. -/
theorem regWrite_ok {id : Byte} {v : Word} (h : regWrite id v s = .ok t) :
    (∃ i : Fin 32, i.val = id.toNat ∧ t = s.setG i v) ∨
      (∃ i : Fin 8, i.val + 32 = id.toNat ∧ t = s.setStaging i v) ∨ (id.toNat = 40 ∧ t = s.setRet v) := by
  unfold regWrite at h
  split at h
  · exact .inl ⟨_, rfl, by simpa [eq_comm] using h⟩
  · split at h
    · exact .inr (.inl ⟨⟨id.toNat - 32, by omega⟩, by show id.toNat - 32 + 32 = id.toNat; omega,
        by simpa [eq_comm] using h⟩)
    · split at h
      · exact .inr (.inr ⟨‹_›, by simpa [eq_comm] using h⟩)
      · cases h

/-- Why a register write writes nothing. -/
theorem regWrite_error {id : Byte} {v : Word} {e : Stop} (h : regWrite id v s = .error e) :
    41 ≤ id.toNat ∧ e = .error (badRegister id .write) := by
  unfold regWrite at h
  split at h
  · cases h
  · split at h
    · cases h
    · split at h
      · cases h
      · exact ⟨by omega, by simpa [eq_comm] using h⟩

/-- A write to an id up to 40 succeeds. -/
theorem regWrite_succeeds {id : Byte} (v : Word) (h : id.toNat ≤ 40) (s : State) : ∃ t, regWrite id v s = .ok t := by
  match hr : regWrite id v s with
  | .ok t => exact ⟨t, rfl⟩
  | .error e => exact absurd (regWrite_error hr).1 (by omega)

/-! ## Frames and activations -/

theorem newFrame_ok {f : Frame} {r : Nat} (h : newFrame f s = .ok (r, t)) :
    atLimit s.cfg.frameCap s.liveFrames = false ∧ r = s.frames.length ∧ t = { s with frames := s.frames ++ [f] } := by
  unfold newFrame at h
  split at h
  · cases h
  · rename_i hl
    simp only [Except.ok.injEq, Prod.mk.injEq] at h
    exact ⟨by simpa using hl, h.1.symm, h.2.symm⟩

theorem newFrame_error {f : Frame} {e : Stop} (h : newFrame f s = .error e) :
    atLimit s.cfg.frameCap s.liveFrames = true ∧ e = .check .depth := by
  unfold newFrame at h
  split at h
  · exact ⟨‹_›, by simpa [eq_comm] using h⟩
  · cases h

theorem pushActivation_ok {a : Activation} (h : pushActivation a s = .ok t) :
    atLimit s.cfg.maxDepth s.activations.length = false ∧ t = { s with act := a, callers := s.act :: s.callers } := by
  unfold pushActivation at h
  split at h
  · cases h
  · rename_i hl
    exact ⟨by simpa using hl, by simpa [eq_comm] using h⟩

theorem pushActivation_error {a : Activation} {e : Stop} (h : pushActivation a s = .error e) :
    atLimit s.cfg.maxDepth s.activations.length = true ∧ e = .check .depth := by
  unfold pushActivation at h
  split at h
  · exact ⟨‹_›, by simpa [eq_comm] using h⟩
  · cases h

@[simp] theorem atLimit_none (n : Nat) : atLimit none n = false := rfl

@[simp] theorem atLimit_some (m n : Nat) : atLimit (some m) n = decide (m ≤ n) := rfl

end Sys2Proof.Machine
end

