-- ==== Sys2Proof/Laws/Exec.lean ====
section
/-! SUPPORT. Everything an instruction and a step can do, one inversion lemma for each handler and one for the step. -/

namespace Sys2Proof.Machine

variable {s t : State}

/-- The state a `Scope` leaves (43_scope_abort.md R130). -/
def afterScope (s : State) : State :=
  { s with
    frames := s.frames ++ [⟨some s.act.cur, none, s.act.staging⟩]
    act := { s.act with cur := s.frames.length, pc := s.act.pc + 1 } }

/-- The state a normal `Call` with the absolute target `target` leaves (42_call.md R114). -/
def afterCall (target : Nat) (s : State) : State :=
  { s with
    frames := s.frames ++ [⟨some s.act.cur, some (s.act.pc + 5), s.act.staging⟩]
    act := freshActivation s.cfg target s.frames.length
    callers := s.act :: s.callers }

/-- What an instruction that gives a next state has done, and when. -/
inductive Effect (s : State) : Instr → State → Prop where
  /-- A `Copy` read an id that is not readable. -/
  | badRead (src dst : Byte) (h : s.act.pc + 2 < s.len) (hs : 40 ≤ src.toNat) :
      Effect s (.copy false src dst) (raise (badRegister src .read) s)
  /-- A `Copy` wrote an id that is not writable. -/
  | badWrite (imm : Bool) (src dst : Byte) (v : Word) (h : s.act.pc + 2 < s.len) (hv : copySource imm src s = .ok v)
      (hd : 41 ≤ dst.toNat) : Effect s (.copy imm src dst) (raise (badRegister dst .write) s)
  /-- A normal `Call` found no `Scope` at its target. -/
  | badTarget (imm : Bool) (cs t0 t1 dst : Byte) (h : s.act.pc + 4 < s.len) (hc : cs = s.cfg.csNormal)
      (hr : cs ≠ s.cfg.csReserved) (hv : targetValid s (callTarget s (callTargetRaw s.cfg t0 t1)) = false) :
      Effect s (.call imm cs t0 t1 dst) (raise ⟨.invalidCallAddress, callTargetRaw s.cfg t0 t1, .none⟩ s)
  /-- A one-byte no-operation. -/
  | advanced (i : Instr) (h : 3 ≤ i.tag) (h' : i.tag ≠ 9) : Effect s i (s.setPc (s.act.pc + 1))
  /-- A `Call` with the reserved call state. -/
  | skipped (imm : Bool) (cs t0 t1 dst : Byte) (h : s.act.pc + 4 < s.len) (hr : cs = s.cfg.csReserved) :
      Effect s (.call imm cs t0 t1 dst) (s.setPc (s.act.pc + 5))
  /-- A `Copy` that wrote. -/
  | copied (imm : Bool) (src dst : Byte) (v : Word) (u : State) (h : s.act.pc + 2 < s.len)
      (hv : copySource imm src s = .ok v) (hu : regWrite dst v s = .ok u) :
      Effect s (.copy imm src dst) (u.setPc (s.act.pc + 3))
  /-- A `Scope`. -/
  | pushed (imm : Bool) (h : atLimit s.cfg.frameCap s.liveFrames = false) : Effect s (.scope imm) (afterScope s)
  /-- An `Abort`. -/
  | popped (imm : Bool) (f : Frame) (h : s.frame? s.act.cur = some f) : Effect s (.abort imm) (popFrame f s)
  /-- A normal `Call` of a valid target. -/
  | called (imm : Bool) (cs t0 t1 dst : Byte) (h : s.act.pc + 4 < s.len) (hc : cs = s.cfg.csNormal)
      (hr : cs ≠ s.cfg.csReserved) (hv : targetValid s (callTarget s (callTargetRaw s.cfg t0 t1)) = true)
      (hf : atLimit s.cfg.frameCap s.liveFrames = false) (hd : atLimit s.cfg.maxDepth s.activations.length = false) :
      Effect s (.call imm cs t0 t1 dst) (afterCall (callTarget s (callTargetRaw s.cfg t0 t1)) s)

/-- `Copy`'s source stops only by a bad id or a broken state. -/
theorem copySource_error {imm : Bool} {src : Byte} {e : Stop} (h : copySource imm src s = .error e) :
    (imm = false ∧ 40 ≤ src.toNat ∧ e = .error (badRegister src .read)) ∨
      (s.frame? s.act.cur = none ∧ e = .broken (.danglingFrame s.act.cur)) := by
  unfold copySource at h
  split at h
  · cases h
  · rename_i hi
    rcases regRead_error h with ⟨hn, he⟩ | ⟨hn, _, _, he⟩
    · exact .inl ⟨by simpa using hi, hn, he⟩
    · exact .inr ⟨hn, he⟩

theorem operandsInside_error {n : Nat} {e : Stop} (h : operandsInside n s = .error e) :
    s.len ≤ s.act.pc + n ∧ e = .check .truncated := by
  unfold operandsInside at h
  split at h
  · cases h
  · exact ⟨by omega, by simpa [eq_comm] using h⟩

theorem execCopy_next {imm : Bool} {src dst : Byte} (h : execCopy imm src dst s = .next t) :
    Effect s (.copy imm src dst) t := by
  rcases settle_next h with h | ⟨d, he, rfl⟩
  · obtain ⟨_, hi, h⟩ := bind_eq_ok h
    obtain ⟨v, hv, h⟩ := bind_eq_ok h
    obtain ⟨u, hu, h⟩ := bind_eq_ok h
    cases h
    exact .copied imm src dst v u (operandsInside_ok hi) hv hu
  · rcases bind_eq_error he with h | ⟨_, hi, h⟩
    · cases (operandsInside_error h).2
    · have hi := operandsInside_ok hi
      rcases bind_eq_error h with h | ⟨v, hv, h⟩
      · rcases copySource_error h with ⟨rfl, hn, he⟩ | ⟨-, he⟩ <;> cases he
        exact .badRead src dst hi hn
      · rcases bind_eq_error h with h | ⟨u, -, h⟩
        · obtain ⟨hn, he⟩ := regWrite_error h
          cases he
          exact .badWrite imm src dst v hi hv hn
        · cases h

theorem execScope_next {imm : Bool} (h : execScope imm s = .next t) : Effect s (.scope imm) t := by
  rcases settle_next h with h | ⟨d, he, rfl⟩
  · obtain ⟨⟨r, u⟩, hf, h⟩ := bind_eq_ok h
    obtain ⟨hl, rfl, rfl⟩ := newFrame_ok hf
    cases h
    exact .pushed imm hl
  · rcases bind_eq_error he with h | ⟨_, -, h⟩
    · cases (newFrame_error h).2
    · cases h

theorem execAbort_next {imm : Bool} (h : execAbort imm s = .next t) : Effect s (.abort imm) t := by
  unfold execAbort at h
  split at h
  · cases h
    exact .popped imm _ ‹_›
  · cases h

/-- A normal call that succeeds makes the call-created frame and pushes the callee. -/
theorem callNormal_ok {raw : Word} (h : callNormal raw s = .ok t) :
    targetValid s (callTarget s raw) = true ∧ atLimit s.cfg.frameCap s.liveFrames = false
      ∧ atLimit s.cfg.maxDepth s.activations.length = false ∧ t = afterCall (callTarget s raw) s := by
  unfold callNormal at h
  simp only at h
  split at h
  · obtain ⟨⟨r, u⟩, hf, h⟩ := bind_eq_ok h
    obtain ⟨hl, rfl, rfl⟩ := newFrame_ok hf
    obtain ⟨hd, rfl⟩ := pushActivation_ok h
    exact ⟨‹_›, hl, hd, rfl⟩
  · cases h

/-- Why a normal call stops: its target is no `Scope`, or there is no room. -/
theorem callNormal_error {raw : Word} {e : Stop} (h : callNormal raw s = .error e) :
    (targetValid s (callTarget s raw) = false ∧ e = .error ⟨.invalidCallAddress, raw, .none⟩) ∨
      (targetValid s (callTarget s raw) = true ∧ e = .check .depth ∧
        (atLimit s.cfg.frameCap s.liveFrames = true ∨ atLimit s.cfg.maxDepth s.activations.length = true)) := by
  unfold callNormal at h
  simp only at h
  split at h
  · rcases bind_eq_error h with h | ⟨⟨r, u⟩, hf, h⟩
    · exact .inr ⟨‹_›, (newFrame_error h).2, .inl (newFrame_error h).1⟩
    · obtain ⟨-, -, rfl⟩ := newFrame_ok hf
      exact .inr ⟨‹_›, (pushActivation_error h).2, .inr (pushActivation_error h).1⟩
  · rename_i hv
    exact .inl ⟨by simpa using hv, by simpa [eq_comm] using h⟩

/-- A normal call of a valid target, with room for a frame and an activation, succeeds. -/
theorem callNormal_of_valid {raw : Word} (hv : targetValid s (callTarget s raw) = true)
    (hf : atLimit s.cfg.frameCap s.liveFrames = false) (hd : atLimit s.cfg.maxDepth s.activations.length = false) :
    callNormal raw s = .ok (afterCall (callTarget s raw) s) := by
  have hd' : atLimit s.cfg.maxDepth (s.callers.length + 1) = false := hd
  simp [callNormal, hv, newFrame, hf, pushActivation, State.activations, hd', afterCall]

theorem execCall_next {imm : Bool} {cs t0 t1 dst : Byte} (h : execCall imm cs t0 t1 dst s = .next t) :
    Effect s (.call imm cs t0 t1 dst) t := by
  rcases settle_next h with h | ⟨d, he, rfl⟩
  · obtain ⟨_, hi, h⟩ := bind_eq_ok h
    have hi := operandsInside_ok hi
    split at h
    · cases h
      exact .skipped imm cs t0 t1 dst hi ‹_›
    · split at h
      · obtain ⟨hv, hf, hd, rfl⟩ := callNormal_ok h
        exact .called imm cs t0 t1 dst hi ‹_› ‹_› hv hf hd
      · cases h
  · rcases bind_eq_error he with h | ⟨_, hi, h⟩
    · cases (operandsInside_error h).2
    · split at h
      · cases h
      · split at h
        · rcases callNormal_error h with ⟨hv, he⟩ | ⟨-, he, -⟩ <;> cases he
          exact .badTarget imm cs t0 t1 dst (operandsInside_ok hi) ‹_› ‹_› hv
        · cases h

/-- Everything an instruction can do. -/
theorem exec_next {i : Instr} (h : exec i s = .next t) : Effect s i t := by
  cases i with
  | call imm cs t0 t1 dst => exact execCall_next h
  | scope imm => exact execScope_next h
  | abort imm => exact execAbort_next h
  | copy imm src dst => exact execCopy_next h
  | mset | mget | cmp | jump | tjmp | fjmp | add | sub | mul | div =>
    cases h
    exact .advanced _ (by simp [Instr.tag]) (by simp [Instr.tag])

/-- The effects say exactly when an instruction gives which next state. -/
theorem exec_of_effect {i : Instr} (h : Effect s i t) : exec i s = .next t := by
  cases h with
  | badRead src dst h hs =>
    have h' : regRead src s = .error (.error (badRegister src .read)) := by
      have h1 : ¬ src.toNat < 32 := by omega
      have h2 : ¬ src.toNat < 40 := by omega
      simp only [regRead, h1, h2, dite_false]
    simp [exec, execCopy, operandsInside_of_lt h, copySource, h']
  | badWrite imm src dst v h hv hd =>
    have h' : regWrite dst v s = .error (.error (badRegister dst .write)) := by
      have h1 : ¬ dst.toNat < 32 := by omega
      have h2 : ¬ dst.toNat < 40 := by omega
      have h3 : ¬ dst.toNat = 40 := by omega
      simp only [regWrite, h1, h2, h3, dite_false, if_false]
    simp [exec, execCopy, operandsInside_of_lt h, hv, h']
  | badTarget imm cs t0 t1 dst h hc hr hv =>
    subst hc
    simp [exec, execCall, operandsInside_of_lt h, hr, callNormal, hv]
  | advanced _ h h' => cases i <;> simp [Instr.tag] at h h' <;> rfl
  | skipped imm cs t0 t1 dst h hr => simp [exec, execCall, operandsInside_of_lt h, hr]
  | copied imm src dst v u h hv hu => simp [exec, execCopy, operandsInside_of_lt h, hv, hu]
  | pushed imm h => simp [exec, execScope, newFrame, h, afterScope, State.setCur, State.setPc]
  | popped imm f h => simp [exec, execAbort, h]
  | called imm cs t0 t1 dst h hc hr hv hf hd =>
    subst hc
    simp [exec, execCall, operandsInside_of_lt h, hr, callNormal_of_valid hv hf hd]

/-- An instruction gives a next state exactly by one of its effects. -/
theorem exec_next_iff {i : Instr} : exec i s = .next t ↔ Effect s i t := ⟨exec_next, exec_of_effect⟩

/-! ## The step -/

/-- The fetch gives an instruction exactly when the decoder reads it at `A.PC`. -/
theorem fetch_ok {i : Instr} (h : fetch s = .ok i) : ∃ rest, decode (s.im.drop s.act.pc) = .ok i rest := by
  unfold fetch at h
  split at h
  · cases h
    exact ⟨_, ‹_›⟩
  · cases h
  · cases h

theorem fetch_of_decode {i : Instr} {rest : List Byte} (h : decode (s.im.drop s.act.pc) = .ok i rest) :
    fetch s = .ok i := by
  simp [fetch, h]

/-- An activation end that gives a next state ended the run, or returned to the caller, where the return-value write
succeeded or raised. -/
theorem activationEnd_next (h : activationEnd s = .next t) :
    (s.callers = [] ∧ t = endRun s) ∨
      ∃ c cs dst, s.callers = c :: cs ∧ s.im[c.pc + 4]? = some dst ∧
        ((∃ u, regWrite dst s.act.ret (popActivation c cs s) = .ok u ∧ t = u.setPc (c.pc + 5)) ∨
          (41 ≤ dst.toNat ∧ t = raise (badRegister dst .write) (popActivation c cs s))) := by
  unfold activationEnd at h
  split at h
  · exact .inl ⟨‹_›, by simpa [eq_comm] using h⟩
  · rename_i c cs hc
    split at h
    · simp at h
    · rename_i dst hd
      refine .inr ⟨c, cs, dst, hc, hd, ?_⟩
      rcases settle_next h with h | ⟨d, h, ht⟩
      · obtain ⟨u, hu, h⟩ := bind_eq_ok h
        cases h
        exact .inl ⟨u, hu, rfl⟩
      · rcases bind_eq_error h with h | ⟨u, -, h⟩
        · obtain ⟨hn, he⟩ := regWrite_error h
          cases he
          exact .inr ⟨hn, ht⟩
        · cases h

/-- Everything a step can do: it raises `InvalidOpcode` at the fetch, it executes the decoded instruction, or it ends an
activation. -/
theorem step_next (h : step s = .next t) :
    s.status = .running ∧
      ((s.act.pc < s.len ∧
          ((∃ b, decode (s.im.drop s.act.pc) = .invalidOpcode b ∧
              t = raise ⟨.invalidOpcode, b.setWidth 16, .none⟩ s) ∨
            ∃ i rest, decode (s.im.drop s.act.pc) = .ok i rest ∧ exec i s = .next t)) ∨
        (s.len ≤ s.act.pc ∧ activationEnd s = .next t)) := by
  unfold step at h
  split at h
  · rename_i hr
    refine ⟨hr, ?_⟩
    split at h
    · rename_i hi
      refine .inl ⟨by simpa [insideStream] using hi, ?_⟩
      unfold instructionStep fetch at h
      split at h
      · rename_i i hf
        split at hf
        · cases hf
          exact .inr ⟨_, _, ‹_›, h⟩
        · cases hf
        · cases hf
      · rename_i e hf
        split at hf
        · cases hf
        · cases hf
          exact .inl ⟨_, ‹_›, by simpa [stopOutcome, eq_comm] using h⟩
        · cases hf
          simp [stopOutcome] at h
    · rename_i hi
      exact .inr ⟨by simpa [insideStream] using hi, h⟩
  all_goals simp at h

/-- Everything a launch can do: it is refused, or it gives the fresh state of R203. -/
theorem launch_eq_some {im : List Byte} {b : List String} (h : launch im b s = some t) :
    s.status ≠ .running ∧ streamOk s.cfg im = true ∧
      t =
        { cfg := s.cfg
          im := im
          builtins := b
          act := freshActivation s.cfg 0 0
          callers := []
          frames := [⟨none, none, Vector.replicate 8 s.cfg.resetWord⟩]
          mem := s.cfg.memInit
          status := .running
          out := Out.reset } := by
  unfold launch at h
  split at h
  · cases h
  · split at h
    · exact ⟨‹_›, ‹_›, by simpa [eq_comm] using h⟩
    · cases h

end Sys2Proof.Machine
end

