-- ==== Sys2Proof/Laws/Frames.lean ====
section
/-! SUPPORT. The frame store: links go to older frames, and making a frame changes no chain of links. -/

namespace Sys2Proof.Machine

/-- The kinds of frame in a store that is in order. -/
theorem State.framesOk_at (s : State) (h : s.framesOk) {r : Nat} {f : Frame} (hr : s.frames[r]? = some f) :
    frameOk s.im r f = true := by
  have hlt : r < s.frames.length := by
    rcases Nat.lt_or_ge r s.frames.length with h | h
    · exact h
    · simp [List.getElem?_eq_none h] at hr
  simpa [hr] using h.2 r hlt

/-- A parent is older than its child. -/
theorem frameOk_parent_lt {im : List Byte} {r p : Nat} {f : Frame} (h : frameOk im r f = true) (hp : f.parent = some p) : p < r := by
  obtain ⟨parent, resume, args⟩ := f
  cases hp
  cases resume <;> simp [frameOk] at h <;> omega

/-- Only the root frame, at position 0, has no parent. -/
theorem frameOk_root {im : List Byte} {r : Nat} {f : Frame} (h : frameOk im r f = true) (hp : f.parent = none) :
    r = 0 ∧ f.resume = none := by
  obtain ⟨parent, resume, args⟩ := f
  cases hp
  cases resume <;> simp [frameOk] at h
  exact ⟨h, rfl⟩

/-- A resume address is the position just after a complete `Call` of the stream. -/
theorem frameOk_resume {im : List Byte} {r a : Nat} {f : Frame} (h : frameOk im r f = true) (ha : f.resume = some a) :
    5 ≤ a ∧ callAt im (a - 5) = true := by
  obtain ⟨parent, resume, args⟩ := f
  cases ha
  cases parent <;> simp [frameOk] at h
  exact ⟨h.1.2, h.2⟩

/-- What it says that a complete `Call` begins at a position. -/
theorem callAt_iff {im : List Byte} {p : Nat} : callAt im p = true ↔ p + 4 < im.length ∧ im[p]?.map tagOf = some 0 := by
  simp [callAt]

/-- A resume address lies in the stream or just behind it (40_decode_dispatch.md R89). -/
theorem frameOk_resume_le {im : List Byte} {r a : Nat} {f : Frame} (h : frameOk im r f = true) (ha : f.resume = some a) :
    a ≤ im.length := by
  obtain ⟨h5, hc⟩ := frameOk_resume h ha
  have := (callAt_iff.mp hc).1
  omega

/-- Every link of the store goes to an older frame. -/
def OlderLinks (fs : List Frame) : Prop :=
  ∀ (r : Nat) (f : Frame) (p : Nat), fs[r]? = some f → f.parent = some p → p < r

/-- In a store whose links go to older frames, fuel above the position changes nothing. -/
theorem chainFrom_fuel {fs : List Frame} (h : OlderLinks fs) :
    ∀ (r n m : Nat), r < n → r < m → chainFrom fs n r = chainFrom fs m r := by
  intro r
  induction r using Nat.strong_induction_on with
  | _ r ih =>
    intro n m hn hm
    obtain ⟨n, rfl⟩ := Nat.exists_eq_add_one_of_ne_zero (by omega : n ≠ 0)
    obtain ⟨m, rfl⟩ := Nat.exists_eq_add_one_of_ne_zero (by omega : m ≠ 0)
    simp only [chainFrom]
    match hf : fs[r]? with
    | none => rfl
    | some f =>
      match hp : f.parent with
      | none => simp [hp]
      | some p =>
        have hlt := h r f p hf hp
        simpa [hp] using ih p hlt n m (by omega) (by omega)

/-- Making a frame changes no chain that starts in the old store. -/
theorem chainFrom_append {fs : List Frame} (h : OlderLinks fs) (g : Frame) :
    ∀ (n r : Nat), r < fs.length → chainFrom (fs ++ [g]) n r = chainFrom fs n r := by
  intro n
  induction n with
  | zero => intros; rfl
  | succ n ih =>
    intro r hr
    simp only [chainFrom, List.getElem?_append_left hr]
    match hf : fs[r]? with
    | none => rfl
    | some f =>
      match hp : f.parent with
      | none => simp [hp]
      | some p => simpa [hp] using ih p (Nat.lt_trans (h r f p hf hp) hr)

/-- In a store that is in order every link goes to an older frame. -/
theorem State.framesOk_links (s : State) (h : s.framesOk) : OlderLinks s.frames :=
  fun _ _ _ hf hp => frameOk_parent_lt (s.framesOk_at h hf) hp

/-- The chain of a frame with a parent is the frame and the chain of the parent. -/
theorem frameChain_parent {fs : List Frame} (h : OlderLinks fs) {r p : Nat} {f : Frame} (hf : fs[r]? = some f)
    (hp : f.parent = some p) : frameChain fs r = r :: frameChain fs p := by
  have hlt := h r f p hf hp
  simp only [frameChain]
  rw [chainFrom, hf]
  simpa [hp] using chainFrom_fuel h p r (p + 1) hlt (by omega)

/-- Making a frame changes no old chain. -/
theorem frameChain_append {fs : List Frame} (h : OlderLinks fs) (g : Frame) {r : Nat} (hr : r < fs.length) :
    frameChain (fs ++ [g]) r = frameChain fs r :=
  chainFrom_append h g _ _ hr

/-- The chain of a new frame is the frame and its parent's chain. -/
theorem frameChain_new {fs : List Frame} (h : OlderLinks fs) {g : Frame} {p : Nat} (hg : g.parent = some p)
    (hp : p < fs.length) : frameChain (fs ++ [g]) fs.length = fs.length :: frameChain fs p := by
  simp only [frameChain]
  rw [chainFrom]
  simp only [List.getElem?_concat_length, hg]
  rw [chainFrom_append h g _ _ hp]
  exact congrArg _ (chainFrom_fuel h p _ _ hp (by omega))

/-- A chain stays inside the store. -/
theorem chainFrom_lt {fs : List Frame} (h : OlderLinks fs) :
    ∀ (n r : Nat), r < fs.length → ∀ q ∈ chainFrom fs n r, q < fs.length := by
  intro n
  induction n with
  | zero =>
    intro r _ q hq
    simp [chainFrom] at hq
  | succ n ih =>
    intro r hr q hq
    simp only [chainFrom] at hq
    split at hq
    · simp at hq
    · rename_i f hf
      rcases List.mem_cons.mp hq with rfl | hq
      · exact hr
      · split at hq
        · simp at hq
        · rename_i p hp
          exact ih p (Nat.lt_trans (h r f p hf hp) hr) q hq

end Sys2Proof.Machine
end

