-- ==== Sys2Proof/Laws/Memory.lean ====
section
/-! SUPPORT. The data memory: reading after writing, and the canonical form. -/

namespace Sys2Proof.Machine

/-- A byte written reads back. -/
@[simp] theorem Memory.read_write_same (m : Memory) (a : Nat) (b : Byte) : (m.write a b).read a = some b := by
  induction m with
  | nil => simp [Memory.write, Memory.read]
  | cons c rest ih =>
    simp only [Memory.write]
    split
    · simp [Memory.read]
    · split
      · simp [Memory.read]
      · have : ¬ c.1 = a := by omega
        simp [Memory.read, this, ih]

/-- Writing a byte leaves every other address alone. -/
theorem Memory.read_write_other (m : Memory) {a x : Nat} (b : Byte) (h : x ≠ a) :
    (m.write a b).read x = m.read x := by
  induction m with
  | nil => simp [Memory.write, Memory.read, Ne.symm h]
  | cons c rest ih =>
    simp only [Memory.write]
    split
    · simp [Memory.read, Ne.symm h]
    · split
      · rename_i hac
        simp [Memory.read, ← hac, Ne.symm h]
      · simp [Memory.read, ih]

/-- Every entry after a write is the written one or an old one. -/
theorem Memory.mem_write {m : Memory} {a : Nat} {b : Byte} {c : Host.Cell} (h : c ∈ m.write a b) :
    c = (a, b) ∨ c ∈ m := by
  induction m with
  | nil => simpa [Memory.write] using h
  | cons d rest ih =>
    simp only [Memory.write] at h
    split at h
    · simpa using h
    · split at h
      · rcases List.mem_cons.mp h with rfl | h
        · exact .inl rfl
        · exact .inr (List.mem_cons_of_mem _ h)
      · rcases List.mem_cons.mp h with rfl | h
        · exact .inr List.mem_cons_self
        · exact (ih h).imp_right (List.mem_cons_of_mem _)

/-- Writing a byte of `MEM` keeps the canonical form. -/
theorem Memory.wf_write {m : Memory} {a : Nat} (b : Byte) (h : m.wf) (ha : a < memSize) : (m.write a b).wf := by
  refine ⟨?_, fun c hc => ?_⟩
  · induction m with
    | nil => simp [Memory.write]
    | cons c rest ih =>
      obtain ⟨hp, hb⟩ := h
      obtain ⟨hc, hr⟩ := List.pairwise_cons.mp hp
      simp only [Memory.write]
      split
      · refine List.pairwise_cons.mpr ⟨fun d hd => ?_, hp⟩
        rcases List.mem_cons.mp hd with rfl | hd
        · assumption
        · exact Nat.lt_trans ‹a < c.1› (hc d hd)
      · split
        · rename_i hac
          exact List.pairwise_cons.mpr ⟨fun d hd => hac ▸ hc d hd, hr⟩
        · refine List.pairwise_cons.mpr ⟨fun d hd => ?_, ih ⟨hr, fun d hd => hb d (List.mem_cons_of_mem _ hd)⟩⟩
          rcases Memory.mem_write hd with rfl | hd
          · show c.1 < a
            omega
          · exact hc d hd
  · rcases Memory.mem_write hc with rfl | hc
    · exact ha
    · exact h.2 c hc

/-- Writing bytes that all lie in `MEM` keeps the canonical form. -/
theorem Memory.wf_writeAll {m : Memory} {a : Nat} {bs : List Byte} (h : m.wf) (ha : a + bs.length ≤ memSize) :
    (m.writeAll a bs).wf := by
  induction bs generalizing m a with
  | nil => exact h
  | cons b bs ih =>
    simp only [List.length_cons] at ha
    exact ih (Memory.wf_write b h (by omega)) (by omega)

/-- `MemWrite` keeps the canonical form. -/
theorem memWrite_wf {a : Nat} {bs : List Byte} {s t : State} (h : s.mem.wf) (hw : memWrite a bs s = .ok t) : t.mem.wf := by
  unfold memWrite at hw
  split at hw
  · cases hw
  · cases hw
    exact Memory.wf_writeAll h (by omega)

/-- What a `MemRead` that gives bytes has read: inside `MEM`, and the bytes that stand there. -/
theorem memRead_ok {a n : Nat} {bs : List Byte} {s : State} (h : memRead a n s = .ok bs) :
    a + n ≤ memSize ∧ s.mem.readAll a n = .ok bs := by
  unfold memRead at h
  split at h
  · cases h
  · exact ⟨by omega, h⟩

/-- Bytes read are as many as were asked for, each the byte at its address. -/
theorem Memory.readAll_ok {m : Memory} {n a : Nat} {bs : List Byte} (h : m.readAll a n = .ok bs) :
    bs.length = n ∧ ∀ k, (hk : k < bs.length) → m.read (a + k) = some bs[k] := by
  induction n generalizing a bs with
  | zero =>
    cases h
    exact ⟨rfl, fun k hk => absurd hk (Nat.not_lt_zero k)⟩
  | succ n ih =>
    simp only [Memory.readAll] at h
    split at h
    · cases h
    · rename_i b hb
      split at h
      · cases h
      · rename_i rest hrest
        cases h
        obtain ⟨hl, hr⟩ := ih hrest
        refine ⟨by simp [hl], fun k hk => ?_⟩
        cases k with
        | zero => simpa using hb
        | succ k =>
          have := hr k (by simpa using hk)
          simpa [Nat.add_comm, Nat.add_left_comm] using this

/-- The memory of the reset state is in canonical form. -/
theorem reset_mem_wf : State.reset.mem.wf := by decide

end Sys2Proof.Machine
end

