-- ==== Sys2Proof/Laws/PerInstr.lean ====
section
/-! SUPPORT. Facts stated for every instruction, one lemma per constructor. -/

namespace Sys2Proof.Laws

/-! ## The length of an encoding (30_encoding.md R67) -/

/-- An instruction's encoding has the length its tag gives. -/
def EncodedLength.Statement (i : Instr) : Prop := (encode i).length = i.length

theorem EncodedLength.call (imm : Bool) (cs t0 t1 dst : Byte) : EncodedLength.Statement (.call imm cs t0 t1 dst) := rfl

theorem EncodedLength.scope (imm : Bool) : EncodedLength.Statement (.scope imm) := rfl

theorem EncodedLength.abort (imm : Bool) : EncodedLength.Statement (.abort imm) := rfl

theorem EncodedLength.mset (imm : Bool) : EncodedLength.Statement (.mset imm) := rfl

theorem EncodedLength.mget (imm : Bool) : EncodedLength.Statement (.mget imm) := rfl

theorem EncodedLength.cmp (imm : Bool) : EncodedLength.Statement (.cmp imm) := rfl

theorem EncodedLength.jump (imm : Bool) : EncodedLength.Statement (.jump imm) := rfl

theorem EncodedLength.tjmp (imm : Bool) : EncodedLength.Statement (.tjmp imm) := rfl

theorem EncodedLength.fjmp (imm : Bool) : EncodedLength.Statement (.fjmp imm) := rfl

theorem EncodedLength.copy (imm : Bool) (src dst : Byte) : EncodedLength.Statement (.copy imm src dst) := rfl

theorem EncodedLength.add (imm : Bool) : EncodedLength.Statement (.add imm) := rfl

theorem EncodedLength.sub (imm : Bool) : EncodedLength.Statement (.sub imm) := rfl

theorem EncodedLength.mul (imm : Bool) : EncodedLength.Statement (.mul imm) := rfl

theorem EncodedLength.div (imm : Bool) : EncodedLength.Statement (.div imm) := rfl

/-! ## The tag is one of the fourteen (30_encoding.md R61) -/

/-- An instruction's tag is below the number of tags and its operands are as many as the tag asks for. -/
def DefinedTag.Statement (i : Instr) : Prop := i.tag < numTags ∧ i.operands.length = operandBytes i.tag

theorem DefinedTag.call (imm : Bool) (cs t0 t1 dst : Byte) : DefinedTag.Statement (.call imm cs t0 t1 dst) := ⟨by simp [Instr.tag, numTags], rfl⟩

theorem DefinedTag.scope (imm : Bool) : DefinedTag.Statement (.scope imm) := ⟨by simp [Instr.tag, numTags], rfl⟩

theorem DefinedTag.abort (imm : Bool) : DefinedTag.Statement (.abort imm) := ⟨by simp [Instr.tag, numTags], rfl⟩

theorem DefinedTag.mset (imm : Bool) : DefinedTag.Statement (.mset imm) := ⟨by simp [Instr.tag, numTags], rfl⟩

theorem DefinedTag.mget (imm : Bool) : DefinedTag.Statement (.mget imm) := ⟨by simp [Instr.tag, numTags], rfl⟩

theorem DefinedTag.cmp (imm : Bool) : DefinedTag.Statement (.cmp imm) := ⟨by simp [Instr.tag, numTags], rfl⟩

theorem DefinedTag.jump (imm : Bool) : DefinedTag.Statement (.jump imm) := ⟨by simp [Instr.tag, numTags], rfl⟩

theorem DefinedTag.tjmp (imm : Bool) : DefinedTag.Statement (.tjmp imm) := ⟨by simp [Instr.tag, numTags], rfl⟩

theorem DefinedTag.fjmp (imm : Bool) : DefinedTag.Statement (.fjmp imm) := ⟨by simp [Instr.tag, numTags], rfl⟩

theorem DefinedTag.copy (imm : Bool) (src dst : Byte) : DefinedTag.Statement (.copy imm src dst) := ⟨by simp [Instr.tag, numTags], rfl⟩

theorem DefinedTag.add (imm : Bool) : DefinedTag.Statement (.add imm) := ⟨by simp [Instr.tag, numTags], rfl⟩

theorem DefinedTag.sub (imm : Bool) : DefinedTag.Statement (.sub imm) := ⟨by simp [Instr.tag, numTags], rfl⟩

theorem DefinedTag.mul (imm : Bool) : DefinedTag.Statement (.mul imm) := ⟨by simp [Instr.tag, numTags], rfl⟩

theorem DefinedTag.div (imm : Bool) : DefinedTag.Statement (.div imm) := ⟨by simp [Instr.tag, numTags], rfl⟩

end Sys2Proof.Laws
end

