-- ==== Sys2Proof/Machine/Flags.lean ====
section
/-! DEFINITION. Flags: none. "Flags, condition codes and predicates (checklist B3): none", and "A model must not add one"
(10_state.md rule R33). No instruction computes, sets or reads a flag, so this file defines nothing. -/
end

