-- ==== Sys2Proof/Tests/Slice0.lean ====
section
/-! SUPPORT. Tests on fixed values, the results taken from spec/95_test_vectors.md and the rules named, and a witness for the
hypotheses of each statement. -/

namespace Sys2Proof.Tests

open Sys2Proof Sys2Proof.Machine

/-! ## Helpers -/

/-- The next state of an outcome, if it is one. -/
def nextOf : Outcome → Option State
  | .next t => some t
  | .fault _ => none
  | .refused _ => none

/-- The fault of an outcome, if it is one. -/
def faultOf : Outcome → Option Fault
  | .next _ => none
  | .fault f => some f
  | .refused _ => none

/-- A fresh run of a stream. -/
def running (im : List Byte) : State := { State.reset with im := im }

/-- A fresh run of a stream under other parameters. -/
def under (c : Config) (im : List Byte) : State := { running im with cfg := c }

/-- The root's `PC` at `p`. -/
def atPc (s : State) (p : Nat) : State := { s with act := { s.act with pc := p } }

/-- A byte at position 5, behind five others. -/
def atFive (b : Byte) : State := atPc (running [0x14, 0x14, 0x14, 0x14, 0x14, b]) 5

/-- The root's state after an error. -/
def raised (k : Nat) (d : Diag) (s : State) : State :=
  { s with
    act := { s.act with diag := some d }
    out := { s.out with errKind := k, errDiag := some d, errDepth := s.callers.length }
    status := .error }

/-- Eight words, the first one given. -/
def argsOf (a : Word) : Vector Word 8 := #v[a, 0, 0, 0, 0, 0, 0, 0]

def rootFrame : Frame := ⟨none, none, argsOf 0⟩

/-- Program P4 of 95_test_vectors.md. -/
def p4 : List Byte :=
  [0x13, 0x07, 0x20, 0x00, 0x00, 0x0B, 0x00, 0x01, 0x12, 0x01, 0x28, 0x02, 0x04, 0x12, 0x20, 0x28]

/-- P4 after step 1. -/
def beforeCall : State := { running p4 with act := { State.reset.act with staging := argsOf 7, pc := 3 } }

/-- P4 after step 2: the callee is about to run its `Scope`. -/
def inCallee : State :=
  { beforeCall with
    act := { State.reset.act with pc := 11, base := 11, cur := 1 }
    callers := [beforeCall.act]
    frames := [rootFrame, ⟨some 0, some 8, argsOf 7⟩] }

/-- P4 after step 3. -/
def inScope : State :=
  { inCallee with
    act := { inCallee.act with cur := 2, pc := 12 }
    frames := inCallee.frames ++ [⟨some 1, none, argsOf 0⟩] }

/-- P4 after step 5: the callee is about to end. -/
def atEnd : State := { inScope with act := { inCallee.act with pc := 16, ret := 7 } }

/-- P5 after step 3: the callee is about to run an `Abort` on its call-created frame. -/
def beforeResume : State :=
  { running [0x00, 0x00, 0x09, 0x00, 0x03, 0x14, 0x13, 0x01, 0x0A, 0x02, 0x04, 0x04, 0x13, 0x09, 0x28] with
    act := { State.reset.act with pc := 11, base := 9, cur := 1 }
    callers := [State.reset.act]
    frames := [rootFrame, ⟨some 0, some 5, argsOf 0⟩, ⟨some 1, none, argsOf 0⟩] }

/-- A root whose second frame is a `Scope`'s. -/
def rootInScope : State :=
  { atPc (running [0x02, 0x04]) 1 with
    act := { State.reset.act with pc := 1, cur := 1 }
    frames := [rootFrame, ⟨some 0, none, argsOf 0⟩] }

/-- The start of vector 2.2. -/
def paths : State :=
  { running [] with
    act := { State.reset.act with
      g := (Vector.replicate 32 0 |>.set 5 0x1234 |>.set 31 7)
      staging := #v[200, 201, 202, 203, 204, 205, 206, 207]
      ret := 9 }
    frames := [⟨none, none, #v[100, 101, 102, 103, 104, 105, 106, 107]⟩] }

def depthTwo : Config := { Config.default with maxDepth := some 2 }

def capOf (n : Nat) : Config := { Config.default with frameCap := some n }

/-! ## Well-formedness -/

theorem test_wf_call_state : Instr.wellFormed Config.default (.call false 2 0 0 0) = false := by decide

theorem test_wf_call_states_of_spec :
    Instr.wellFormed Config.default (.call false 0 0 0 0) = true
      ∧ Instr.wellFormed Config.default (.call false 1 0 0 0) = true := by decide

theorem test_wf_default : Config.wellFormed Config.default = true := by decide

theorem test_wf_call_states_differ :
    Config.wellFormed { Config.default with csReserved := 0 } = false := by decide

theorem test_wf_target_bytes : Config.wellFormed { Config.default with callAddrBytes := 3 } = false := by decide

/-- Addresses out of order, and an address that is not one of `MEM`. -/
theorem test_wf_mem_init :
    Config.wellFormed { Config.default with memInit := [(1, 0), (0, 0)] } = false
      ∧ Config.wellFormed { Config.default with memInit := [(65535, 0)] } = false
      ∧ Config.wellFormed { Config.default with memInit := [(0, 1), (65534, 2)] } = true := by decide

theorem test_wf_skew : Config.wellFormed { Config.default with abortSkew := 2 } = false := by decide

theorem test_wf_depth : Config.wellFormed { Config.default with maxDepth := some 0 } = false := by decide

theorem test_wf_frames : Config.wellFormed { Config.default with frameCap := some 0 } = false := by decide

theorem test_wf_codes_differ : Config.wellFormed { Config.default with errGeneral := 3 } = false := by decide

theorem test_wf_codes_not_zero : Config.wellFormed { Config.default with errInvalidOpcode := 0 } = false := by decide

theorem test_stream_too_long : streamOk { Config.default with pcBits := 2 } [0x14, 0x14, 0x14] = false := by decide

theorem test_stream_longest : streamOk { Config.default with pcBits := 2 } [0x14, 0x14] = true := by decide

/-! ## Decoding: words written from the tables of 30_encoding.md R61, R64 and R65 -/

theorem test_decode_call :
    decode [0b00000000, 0x00, 0x0B, 0x00, 0x01] = .ok (.call false 0x00 0x0B 0x00 0x01) []
      ∧ decode [0b00000001, 0x01, 0xFF, 0xFE, 0x63, 0x02] = .ok (.call true 0x01 0xFF 0xFE 0x63) [0x02] := by decide

theorem test_decode_scope :
    decode [0b00000010] = .ok (.scope false) [] ∧ decode [0b00000011] = .ok (.scope true) [] := by decide

theorem test_decode_abort :
    decode [0b00000100] = .ok (.abort false) [] ∧ decode [0b00000101] = .ok (.abort true) [] := by decide

theorem test_decode_mset :
    decode [0b00000110] = .ok (.mset false) [] ∧ decode [0b00000111] = .ok (.mset true) [] := by decide

theorem test_decode_mget :
    decode [0b00001000] = .ok (.mget false) [] ∧ decode [0b00001001] = .ok (.mget true) [] := by decide

theorem test_decode_cmp :
    decode [0b00001010] = .ok (.cmp false) [] ∧ decode [0b00001011] = .ok (.cmp true) [] := by decide

theorem test_decode_jump :
    decode [0b00001100] = .ok (.jump false) [] ∧ decode [0b00001101] = .ok (.jump true) [] := by decide

theorem test_decode_tjmp :
    decode [0b00001110] = .ok (.tjmp false) [] ∧ decode [0b00001111] = .ok (.tjmp true) [] := by decide

theorem test_decode_fjmp :
    decode [0b00010000] = .ok (.fjmp false) [] ∧ decode [0b00010001] = .ok (.fjmp true) [] := by decide

theorem test_decode_copy :
    decode [0b00010010, 0x03, 0x04] = .ok (.copy false 0x03 0x04) []
      ∧ decode [0b00010011, 0x14, 0x00, 0xFF] = .ok (.copy true 0x14 0x00) [0xFF] := by decide

theorem test_decode_add :
    decode [0b00010100] = .ok (.add false) [] ∧ decode [0b00010101] = .ok (.add true) [] := by decide

theorem test_decode_sub :
    decode [0b00010110] = .ok (.sub false) [] ∧ decode [0b00010111] = .ok (.sub true) [] := by decide

theorem test_decode_mul :
    decode [0b00011000] = .ok (.mul false) [] ∧ decode [0b00011001] = .ok (.mul true) [] := by decide

theorem test_decode_div :
    decode [0b00011010] = .ok (.div false) [] ∧ decode [0b00011011] = .ok (.div true) [] := by decide

theorem test_decode_invalid :
    decode [0b00011100] = .invalidOpcode 0x1C ∧ decode [0b00011101, 0x02] = .invalidOpcode 0x1D
      ∧ decode [0b11111110] = .invalidOpcode 0xFE ∧ decode [0b11111111] = .invalidOpcode 0xFF := by decide

theorem test_decode_truncated :
    decode [0x12, 0x03] = .truncated ∧ decode [0x00, 0x00, 0x00, 0x00] = .truncated ∧ decode [] = .truncated := by decide

theorem test_encode :
    encode (.copy true 20 0) = [0x13, 0x14, 0x00] ∧ encode (.call false 0 0x0B 0 1) = [0x00, 0x00, 0x0B, 0x00, 0x01] := by
  decide

theorem test_table_word :
    decodeTableWord 24 0x001413 = some (.copy true 0x14 0x00)
      ∧ decodeTableWord 40 0x01000B0000 = some (.call false 0x00 0x0B 0x00 0x01)
      ∧ decodeTableWord 8 0x12 = some (.copy false 0x00 0x00) ∧ decodeTableWord 8 0x1C = none := by decide

/-! ## Reset, launch and placing -/

theorem test_launch_loads_stream : launch p4 [] (State.powerOn Config.default) = some (running p4) := by decide

/-- `MEM_INIT` is what a program's memory holds at its launch; a byte it does not list has no value (log 6). -/
theorem test_launch_memory :
    let t := (launch [] [] (State.powerOn { Config.default with memInit := [(7, 0x5A)] })).getD State.reset
    memRead 7 1 t = .ok [0x5A] ∧ memRead 7 2 t = .error (.memUnwritten 8) := ⟨rfl, rfl⟩

/-- An access that passes `MEM_SIZE` stops, one of no bytes too (log 43). -/
theorem test_memory_end :
    memRead 65535 0 State.reset = .ok [] ∧ memRead 65536 0 State.reset = .error (.memAbsent 65536)
      ∧ memWrite 65536 [] State.reset = .error (.memAbsent 65536) := ⟨rfl, rfl, rfl⟩

theorem test_empty_stream_ends : (nextOf (step State.reset)).map (·.status) = some .done := by decide

/-- The first byte of scenario A, placed at reset, runs as the first instruction. -/
theorem test_placed_word_runs :
    (nextOf (step (State.reset.withFetchWord 24 0x001413))).map (fun t => (t.act.g[0], t.act.pc)) = some (20, 3) := by decide

theorem test_placed_word_in_the_middle :
    (nextOf (step (inCallee.withFetchWord 24 0x280513))).map (fun t => (t.act.ret, t.act.pc)) = some (5, 14) := by decide

/-! ## Register paths: vector 2.2 -/

theorem test_reg_read :
    regRead 5 paths = .ok 0x1234 ∧ regRead 31 paths = .ok 7 ∧ regRead 32 paths = .ok 100 ∧ regRead 39 paths = .ok 107 :=
  ⟨rfl, rfl, rfl, rfl⟩

theorem test_reg_read_bad :
    regRead 40 paths = .error (.error ⟨.general, 40, .read⟩) ∧ regRead 255 paths = .error (.error ⟨.general, 255, .read⟩) :=
  ⟨rfl, rfl⟩

theorem test_reg_write_argument : regWrite 32 55 paths = .ok (paths.setStaging 0 55) ∧ regRead 32 (paths.setStaging 0 55) = .ok 100 :=
  ⟨rfl, rfl⟩

theorem test_reg_write_return : regWrite 40 77 paths = .ok (paths.setRet 77) := rfl

theorem test_reg_write_bad :
    regWrite 41 1 paths = .error (.error ⟨.general, 41, .write⟩) ∧ regWrite 255 1 paths = .error (.error ⟨.general, 255, .write⟩) :=
  ⟨rfl, rfl⟩

/-! ## Copy: vector 2.5 -/

/-- Row 2: the literal is zero-extended. -/
theorem test_copy_literal :
    (nextOf (step (running [0x13, 0xFF, 0x1F]))).map (fun t => (t.act.g[31], t.act.pc)) = some (0x00FF, 3) := by decide

/-- Row 9: the read is first. -/
theorem test_copy_read_error_first :
    nextOf (step (running [0x12, 0x29, 0x2A])) = some (raised 1 ⟨.general, 41, .read⟩ (running [0x12, 0x29, 0x2A])) := by
  decide

/-- Row 8: a literal 40 is a value. -/
theorem test_copy_write_error :
    nextOf (step (running [0x13, 0x28, 0xFF])) = some (raised 1 ⟨.general, 255, .write⟩ (running [0x13, 0x28, 0xFF])) := by
  decide

/-- Row 10. -/
theorem test_copy_truncated :
    faultOf (step (running [0x13, 0x14])) = some (.mcTruncated (stoppedBy .truncated (running [0x13, 0x14]))) := by decide

/-! ## Scope and Abort: vectors 2.3 and 2.4 -/

/-- 2.3 row 2, and 43_scope_abort.md R130's example. -/
theorem test_scope :
    nextOf (step (atPc beforeCall 11)) =
      some { atPc beforeCall 12 with
        act := { (atPc beforeCall 12).act with cur := 1 }, frames := [rootFrame, ⟨some 0, none, argsOf 7⟩] } := by decide

/-- P4 step 3: the entry `Scope` takes the callee's own staging area. -/
theorem test_scope_in_callee : nextOf (step inCallee) = some inScope := by decide

/-- 2.4 row 1, scenario C. -/
theorem test_abort_scope_frame :
    (nextOf (step rootInScope)).map (fun t => (t.act.cur, t.act.pc)) = some (0, 2) := by decide

/-- P5 step 4. -/
theorem test_abort_takes_resume :
    (nextOf (step beforeResume)).map (fun t => (t.act.cur, t.act.pc, t.depth)) = some (0, 6, 1) := by decide

/-- 2.4 row 2. -/
theorem test_abort_at_root : nextOf (step (running [0x05])) = some (atPc (running [0x05]) 1) := by decide

/-! ## Call: vectors 2.6, 2.7, 2.8 and P4 -/

/-- P4 step 2. -/
theorem test_call : nextOf (step beforeCall) = some inCallee := by decide

/-- 2.6 row 1. -/
theorem test_call_reserved :
    nextOf (step (running [0x00, 0x01, 0xFF, 0xFF, 0x63])) = some (atPc (running [0x00, 0x01, 0xFF, 0xFF, 0x63]) 5) := by
  decide

/-- 2.6 row 2. -/
theorem test_call_state :
    faultOf (step (running [0x00, 0x02, 0x00, 0x00, 0x00])) =
      some (.mcCallState (stoppedBy .callState (running [0x00, 0x02, 0x00, 0x00, 0x00]))) := by decide

/-- 2.6 row 3. -/
theorem test_call_truncated :
    faultOf (step (running [0x00, 0x00, 0x00, 0x00])) =
      some (.mcTruncated (stoppedBy .truncated (running [0x00, 0x00, 0x00, 0x00]))) := by decide

/-- 2.6 rows 4 and 5: the two byte orders. -/
theorem test_call_no_scope :
    nextOf (step (running [0x00, 0x00, 0x05, 0x00, 0x01, 0x14])) =
        some (raised 3 ⟨.invalidCallAddress, 5, .none⟩ (running [0x00, 0x00, 0x05, 0x00, 0x01, 0x14]))
      ∧ (nextOf (step (under { Config.default with callAddrOrder := .big } [0x00, 0x00, 0x05, 0x00, 0x01, 0x14]))).map
          (·.out.errDiag) = some (some ⟨.invalidCallAddress, 1280, .none⟩) := by decide

/-- 2.8: in a callee with `BASE` 6 the target `0C` is 18 under `CALLER_SLICE`, beyond the stream. -/
theorem test_call_caller_slice :
    callTarget
        { under { Config.default with callTargetMode := .callerSlice } [] with act := { State.reset.act with base := 6 } } 12 = 18 := by
  decide

/-- 2.8, last row: `MC_DEPTH` with `MAX_DEPTH` 3 and three activations on the stack. -/
theorem test_call_depth :
    let s : State :=
      { under { Config.default with maxDepth := some 3 } [0x02, 0x00, 0x00, 0x00, 0x00, 0x00] with
        act := { State.reset.act with pc := 1 }, callers := [State.reset.act, State.reset.act] }
    faultOf (step s) = some (.mcDepth (stoppedBy .depth s)) := by decide

/-- P4 step 6. -/
theorem test_call_returns :
    nextOf (step atEnd) =
      some { atEnd with
        act := { beforeCall.act with g := Vector.replicate 32 0 |>.set 1 7, pc := 8 }, callers := [] } := by decide

/-- 2.6 row 10: `dst` is looked at last, and the error is the caller's. -/
theorem test_call_bad_destination :
    let s : State :=
      { running [0x00, 0x00, 0x05, 0x00, 0x29, 0x02] with
        act := { State.reset.act with pc := 6, base := 5 }, callers := [State.reset.act] }
    nextOf (step s) = some (raised 1 ⟨.general, 41, .write⟩ { s with act := State.reset.act, callers := [] }) := by decide

/-! ## The unspecified opcodes: the examples of 45_unspecified_opcodes.md, all at `PC` 5 -/

theorem test_mset : nextOf (step (atFive 0x06)) = some (atPc (atFive 0x06) 6) := by decide

theorem test_mget : nextOf (step (atFive 0x09)) = some (atPc (atFive 0x09) 6) := by decide

theorem test_cmp : nextOf (step (atFive 0x0A)) = some (atPc (atFive 0x0A) 6) := by decide

theorem test_jump : nextOf (step (atFive 0x0C)) = some (atPc (atFive 0x0C) 6) := by decide

theorem test_tjmp : nextOf (step (atFive 0x0E)) = some (atPc (atFive 0x0E) 6) := by decide

theorem test_fjmp : nextOf (step (atFive 0x11)) = some (atPc (atFive 0x11) 6) := by decide

theorem test_add : nextOf (step (atFive 0x14)) = some (atPc (atFive 0x14) 6) := by decide

theorem test_sub : nextOf (step (atFive 0x16)) = some (atPc (atFive 0x16) 6) := by decide

theorem test_mul : nextOf (step (atFive 0x18)) = some (atPc (atFive 0x18) 6) := by decide

theorem test_div : nextOf (step (atFive 0x1B)) = some (atPc (atFive 0x1B) 6) := by decide

/-! ## Errors and ends -/

/-- Scenario B. -/
theorem test_invalid_opcode :
    nextOf (step (running [0xFF])) = some (raised 2 ⟨.invalidOpcode, 255, .none⟩ (running [0xFF])) := by decide

/-- P8 step 4: the callee's error leaves the caller's record as it was. -/
theorem test_error_in_callee :
    let s : State :=
      { running [0x13, 0x05, 0x00, 0x00, 0x00, 0x08, 0x00, 0x01, 0x02, 0x12, 0x28, 0x02] with
        act := { State.reset.act with pc := 9, base := 8 }
        callers := [{ State.reset.act with g := Vector.replicate 32 0 |>.set 0 5, pc := 3 }] }
    nextOf (step s) = some (raised 1 ⟨.general, 40, .read⟩ s) := by decide

/-- Scenario A, step 2. -/
theorem test_root_end :
    let s := atPc ((running [0x13, 0x14, 0x00]).setG 0 20) 3
    (nextOf (step s)).map hostReport = some (.done 0 (Vector.replicate 32 0 |>.set 0 20)) := by decide

/-! ## Witnesses: encoding and the step -/

theorem witness_DecodedBytesAreTheEncoding : decode [0x13, 0x14, 0x00, 0xFF] = .ok (.copy true 0x14 0x00) [0xFF] := by decide

/-- Each clause at the edges of its range of tags and of lengths. -/
theorem witness_TagAloneDecidesDecoding :
    (14 ≤ tagOf 0x1C ∧ 14 ≤ tagOf 0xFF)
      ∧ (tagOf 0x13 < 14 ∧ ([0x14] : List Byte).length < operandBytes (tagOf 0x13))
      ∧ (tagOf 0x00 < 14 ∧ ([0, 0, 0] : List Byte).length < operandBytes (tagOf 0x00))
      ∧ (tagOf 0x1B < 14 ∧ operandBytes (tagOf 0x1B) ≤ ([] : List Byte).length)
      ∧ (tagOf 0x13 < 14 ∧ operandBytes (tagOf 0x13) ≤ ([0x14, 0x00] : List Byte).length)
      ∧ (tagOf 0x00 < 14 ∧ operandBytes (tagOf 0x00) ≤ ([0, 0, 0, 0] : List Byte).length) := by decide

theorem witness_StepRunsDecodedInstruction :
    beforeCall.status = .running ∧ beforeCall.act.pc < beforeCall.len
      ∧ decode (beforeCall.im.drop beforeCall.act.pc) = .ok (.call false 0x00 0x0B 0x00 0x01) (p4.drop 8) := by decide

theorem witness_PlacedInstructionRunsNext :
    decodeTableWord 24 0x001413 = some (.copy true 0x14 0x00) ∧ decodeTableWord 8 0x00 = some (.call false 0 0 0 0) := by decide

theorem witness_InvalidOpcodeByteRaises :
    (running [0xFF]).status = .running ∧ (running [0xFF]).im[(running [0xFF]).act.pc]? = some 0xFF ∧ 0x1C ≤ (0xFF : Byte).toNat
      ∧ (running [0x1C]).im[(running [0x1C]).act.pc]? = some 0x1C ∧ 0x1C ≤ (0x1C : Byte).toNat := by decide

/-- Both clauses where one more byte would be enough. -/
theorem witness_CutOffInstructionIsMachineCheck :
    (∃ s : State, s.status = .running ∧ s.im[s.act.pc]? = some 0x01 ∧ tagOf 0x01 = 0 ∧ s.len = s.act.pc + 4)
      ∧ ∃ s : State, s.status = .running ∧ s.im[s.act.pc]? = some 0x12 ∧ tagOf 0x12 = 9 ∧ s.len = s.act.pc + 2 :=
  ⟨⟨running [0x01, 0, 0, 0], by decide⟩, ⟨running [0x12, 0], by decide⟩⟩

theorem witness_NoStepOutsideRunning : (State.powerOn Config.default).status ≠ .running := by decide

/-- The end of a run by an error of an instruction, and by one of the return-value write. -/
theorem witness_RaisedErrorIsRecordedAndEndsTheRun :
    (∃ t, step (running [0xFF]) = .next t ∧ t.status = .error)
      ∧ ∃ t, step { atEnd with im := [0, 0, 0, 0, 0, 0, 0, 0x29] } = .next t ∧ t.status = .error :=
  ⟨⟨_, rfl, rfl⟩, _, rfl, rfl⟩

/-! ## Witnesses: register paths -/

/-- The edges of the clauses: 0 and 31, 32 and 39 with a current frame, 40 and 255. -/
theorem witness_RegReadFollowsIdMap :
    (0x00 : Byte).toNat < 32 ∧ (0x1F : Byte).toNat < 32 ∧ 32 ≤ (0x20 : Byte).toNat ∧ (0x27 : Byte).toNat < 40
      ∧ (paths.frame? paths.act.cur).isSome ∧ 40 ≤ (0x28 : Byte).toNat ∧ 40 ≤ (0xFF : Byte).toNat := by decide

theorem witness_RegWriteFollowsIdMap :
    (0x00 : Byte).toNat < 32 ∧ (0x1F : Byte).toNat < 32 ∧ 32 ≤ (0x20 : Byte).toNat ∧ (0x27 : Byte).toNat < 40
      ∧ (0x28 : Byte).toNat = 40 ∧ 41 ≤ (0x29 : Byte).toNat ∧ 41 ≤ (0xFF : Byte).toNat := by decide

theorem witness_GeneralRegisterRoundTrip :
    (0x1F : Byte).toNat < 32 ∧ (∀ w ∈ ([(0x00, 5), (0x28, 6), (0x20, 7)] : List (Byte × Word)), w.1 ≠ 0x1F)
      ∧ ∃ u, regWrites [(0x00, 5), (0x28, 6), (0x20, 7)] (paths.setG 31 3) = .ok u :=
  ⟨by decide, by simp, (((paths.setG 31 3).setG 0 5).setRet 6).setStaging 0 7, rfl⟩

theorem witness_ArgumentIdsSeparateReadAndWrite :
    32 ≤ (0x27 : Byte).toNat ∧ (0x27 : Byte).toNat < 40
      ∧ ∃ t, regWrite 0x27 9 beforeCall = .ok t
        ∧ (∃ u, regWrites [(0x27, 1), (0x00, 2)] t = .ok u)
        ∧ (∃ u, exec (.scope false) t = .next u)
        ∧ ∃ u, exec (.call false 0x00 0x0B 0x00 0x01) t = .next u ∧ u.depth = t.depth + 1 :=
  ⟨by decide, by decide, _, rfl, ⟨_, rfl⟩, ⟨_, rfl⟩, _, rfl, rfl⟩

/-! ## Witnesses: instructions -/

/-- The clauses at their edges: one byte short, ids 40 and 41, and a source of each kind. -/
theorem witness_CopyMovesSourceToDestination :
    (running [0x13, 0x14]).len ≤ (running [0x13, 0x14]).act.pc + 2
      ∧ (running [0x13, 0x14, 0x00]).act.pc + 2 < (running [0x13, 0x14, 0x00]).len
      ∧ 40 ≤ (0x28 : Byte).toNat ∧ 41 ≤ (0x29 : Byte).toNat ∧ (0x1F : Byte).toNat < 32
      ∧ (32 ≤ (0x27 : Byte).toNat ∧ (0x27 : Byte).toNat < 40) ∧ (0x28 : Byte).toNat = 40
      ∧ (running [0x13, 0x14, 0x00]).im[0]? = some 0x13 ∧ (running [0x13, 0x14, 0x00]).im[1]? = some 0x14
      ∧ (running [0x13, 0x14, 0x00]).im[2]? = some 0x00 ∧ (running [0x12, 0x20, 0x28]).im[0]? = some 0x12 := by decide

theorem witness_SourceValue :
    SourceValue true 0xFF beforeCall 255 ∧ SourceValue false 0x1F beforeCall 0
      ∧ SourceValue false 0x20 inCallee 7 :=
  ⟨.inl ⟨rfl, by decide⟩, .inr ⟨rfl, rfl⟩, .inr ⟨rfl, rfl⟩⟩

/-- A state that no run reaches. -/
theorem witness_DanglingCurrentFrameStops :
    ({ beforeCall with frames := [] } : State).frame? beforeCall.act.cur = none ∧ beforeCall.act.pc + 2 < beforeCall.len
      ∧ 32 ≤ (0x20 : Byte).toNat ∧ (0x27 : Byte).toNat < 40 := by
  decide

theorem witness_UnspecifiedOpcodesOnlyAdvance :
    (Instr.mset true) ∈ ([.mset true, .mget true, .cmp true, .jump true, .tjmp true, .fjmp true, .add true, .sub true, .mul true,
      .div true] : List Instr)
      ∧ (running [0x07]).status = .running
      ∧ (running [0x07]).im[(running [0x07]).act.pc]? = some (opcodeByte (Instr.mset true).tag true) := by decide

/-- Room is left below a limit of 2 frames, none at a limit of 1, with one live frame. -/
theorem witness_ScopePushesFrame :
    (under (capOf 2) []).roomForFrame ∧ ¬ (under (capOf 1) []).roomForFrame
      ∧ (running [0x03]).status = .running ∧ (running [0x03]).im[(running [0x03]).act.pc]? = some 0x03 :=
  ⟨fun _ h => by cases h; decide, fun h => absurd (h 1 rfl) (by decide), rfl, rfl⟩

theorem witness_AbortPopsFrame :
    (∃ f, beforeCall.frame? beforeCall.act.cur = some f ∧ f.parent = none)
      ∧ (∃ f, inScope.frame? inScope.act.cur = some f ∧ f.parent = some 1 ∧ f.resume = none)
      ∧ ∃ f, beforeResume.frame? beforeResume.act.cur = some f ∧ f.parent = some 0 ∧ f.resume = some 5 :=
  ⟨⟨_, rfl, rfl⟩, ⟨_, rfl, rfl, rfl⟩, _, rfl, rfl, rfl⟩

theorem witness_call :
    beforeCall.act.pc + 4 < beforeCall.len ∧ beforeCall.cfg.csNormal ≠ beforeCall.cfg.csReserved
      ∧ beforeCall.im[callTarget beforeCall (callTargetRaw beforeCall.cfg 0x0B 0x00)]? = some 0x02 ∧ tagOf 0x02 = 1 := by decide

/-- The last frame and the last activation that the limits allow, and the first of each that they do not. -/
theorem witness_CallStartsCallee :
    (({ beforeCall with cfg := capOf 2 } : State).roomForFrame ∧ ({ beforeCall with cfg := depthTwo } : State).roomForActivation)
      ∧ ¬ ({ beforeCall with cfg := capOf 1 } : State).roomForFrame
      ∧ ¬ ({ inCallee with cfg := depthTwo } : State).roomForActivation :=
  ⟨⟨fun _ h => by cases h; decide, fun _ h => by cases h; decide⟩, fun h => absurd (h 1 rfl) (by decide),
    fun h => absurd (h 2 rfl) (by decide)⟩

theorem witness_ReservedCallStateOnlyAdvances :
    (running [0x00, 0x01, 0xFF, 0xFF, 0x63]).act.pc + 4 < (running [0x00, 0x01, 0xFF, 0xFF, 0x63]).len := by decide

theorem witness_CallMachineChecksInOrder :
    (running [0x00, 0x00, 0x00, 0x00]).len ≤ (running [0x00, 0x00, 0x00, 0x00]).act.pc + 4
      ∧ beforeCall.act.pc + 4 < beforeCall.len ∧ (0x02 : Byte) ≠ beforeCall.cfg.csNormal ∧ (0x02 : Byte) ≠ beforeCall.cfg.csReserved
      ∧ (0xFF : Byte) ≠ beforeCall.cfg.csNormal ∧ (0xFF : Byte) ≠ beforeCall.cfg.csReserved := by decide

/-- A target byte that is no `Scope`, and a target just beyond the stream. -/
theorem witness_CallOfNoScopeRaises :
    (∀ b, beforeCall.im[callTarget beforeCall (callTargetRaw beforeCall.cfg 0x0C 0x00)]? = some b → tagOf b ≠ 1)
      ∧ ∀ b, beforeCall.im[callTarget beforeCall (callTargetRaw beforeCall.cfg 0x10 0x00)]? = some b → tagOf b ≠ 1 :=
  ⟨fun b h => by
    have h' : some (0x04 : Byte) = some b := h
    cases h'
    decide, fun b h => by
    have h' : (none : Option Byte) = some b := h
    cases h'⟩

theorem witness_CallTargetByOrderAndMode :
    Config.default.callAddrOrder = .little ∧ Config.default.callTargetMode = .absolute
      ∧ ({ Config.default with callAddrOrder := .big } : Config).callAddrOrder = .big
      ∧ ({ Config.default with callTargetMode := .callerSlice } : Config).callTargetMode = .callerSlice
      ∧ beforeCall.act.base = 0 := by decide

/-- The callee's end, with the destination byte replaced by each kind of id at its edges, or absent. -/
theorem witness_CalleeEndDeliversReturnValue :
    (∀ d ∈ ([0x00, 0x1F, 0x20, 0x27, 0x28, 0x29, 0xFF] : List Byte),
        ∃ s : State, s.status = .running ∧ s.len ≤ s.act.pc ∧ s.callers = [beforeCall.act]
          ∧ s.im[beforeCall.act.pc + 4]? = some d)
      ∧ ∃ s : State, s.status = .running ∧ s.len ≤ s.act.pc ∧ s.callers = [beforeCall.act]
          ∧ s.im[beforeCall.act.pc + 4]? = none :=
  ⟨fun d _ => ⟨{ atEnd with im := [0, 0, 0, 0, 0, 0, 0, d] }, rfl, by simp [State.len, atEnd], rfl, rfl⟩,
    { atEnd with im := [] }, rfl, by simp [State.len], rfl, rfl⟩

theorem witness_RootEndFinishesRun :
    State.reset.status = .running ∧ State.reset.len ≤ State.reset.act.pc ∧ State.reset.callers = [] := by decide

/-! ## Witnesses: frames -/

/-- A `Copy` that writes and one that raises. -/
theorem witness_CopyChangesOnlyItsDestination :
    (∃ t, exec (.copy true 7 0x20) beforeCall = .next t ∧ t.status = .running)
      ∧ ∃ t, exec (.copy true 7 0x29) beforeCall = .next t ∧ t.status = .error := ⟨⟨_, rfl, rfl⟩, _, rfl, rfl⟩

/-- A `Scope`, an `Abort` and another instruction. -/
theorem witness_FrameAndIdleInstructionsKeepRegisters :
    (∃ t, exec (.scope false) beforeCall = .next t) ∧ (∃ t, exec (.abort false) beforeResume = .next t)
      ∧ (∃ t, exec (.div true) beforeCall = .next t)
      ∧ (Instr.scope false).tag = 1 ∧ (Instr.abort false).tag = 2 ∧ (Instr.div true).tag ≠ 0 ∧ (Instr.div true).tag ≠ 1
      ∧ (Instr.div true).tag ≠ 2 ∧ (Instr.div true).tag ≠ 9 :=
  ⟨⟨_, rfl⟩, ⟨_, rfl⟩, ⟨_, rfl⟩, by decide⟩

/-- A `Call` that is skipped, one that raises and one that starts a callee. -/
theorem witness_CallKeepsCallerAndMemory :
    (∃ t, exec (.call false 1 0x0B 0 1) beforeCall = .next t ∧ t.act.pc = 8)
      ∧ (∃ t, exec (.call false 0 0x0C 0 1) beforeCall = .next t ∧ t.status = .error)
      ∧ ∃ t, exec (.call false 0 0x0B 0 1) beforeCall = .next t ∧ t.depth = 1 :=
  ⟨⟨_, rfl, rfl⟩, ⟨_, rfl, rfl⟩, _, rfl, rfl⟩

theorem witness_ReturnChangesOnlyTheDestination :
    atEnd.len ≤ atEnd.act.pc ∧ atEnd.callers = [beforeCall.act] ∧ atEnd.im[beforeCall.act.pc + 4]? = some 0x01
      ∧ ∃ t, step atEnd = .next t := ⟨by decide, rfl, rfl, _, rfl⟩

/-! ## Witnesses: whole-machine rules -/

theorem witness_MemoryAndBuiltinsAreNeverTouched :
    (∃ t, step beforeCall = .next t) ∧ ∃ f, step (running [0x13, 0x14]) = .fault f := ⟨⟨_, rfl⟩, _, rfl⟩

/-- A step, used by every statement about a step that gives a next state: a `Call`, a `Scope` in a callee and a callee's end. -/
theorem witness_steps : step beforeCall = .next inCallee ∧ step inCallee = .next inScope ∧ ∃ t, step atEnd = .next t :=
  ⟨rfl, rfl, _, rfl⟩

theorem witness_FramesAreImmutable :
    (∃ t, step inCallee = .next t) ∧ inCallee.frame? 1 = some ⟨some 0, some 8, argsOf 7⟩ := ⟨⟨_, rfl⟩, rfl⟩

theorem witness_StreamAndParametersAreConstant : ∃ t, step inCallee = .next t := ⟨_, rfl⟩

/-- A step that keeps the stack, one that pushes and one that pops. -/
theorem witness_ActivationsArePushedAndPoppedOnly :
    (∃ t, step inCallee = .next t ∧ t.depth = 1) ∧ (∃ t, step beforeCall = .next t ∧ t.depth = 1)
      ∧ ∃ t, step atEnd = .next t ∧ t.depth = 0 := ⟨⟨_, rfl, rfl⟩, ⟨_, rfl, rfl⟩, _, rfl, rfl⟩

theorem witness_CallersAreNeverRead :
    inCallee.act.pc < inCallee.len
      ∧ [{ beforeCall.act with g := Vector.replicate 32 9, ret := 5 }].map (·.cur) = inCallee.callers.map (·.cur)
      ∧ ∃ t, step inCallee = .next t := ⟨by decide, rfl, _, rfl⟩

/-- The three machine checks and the two errors, each of an instruction, with a `CUR` that names a frame. -/
theorem witness_WhichInstructionCanStop :
    beforeCall.act.cur < beforeCall.frames.length
      ∧ (∃ f, exec (.copy true 0 0) (atPc beforeCall 14) = .fault f)
      ∧ (∃ f, exec (.call false 2 0 0 0) beforeCall = .fault f)
      ∧ (∃ f, exec (.scope false) { beforeCall with cfg := capOf 1 } = .fault f)
      ∧ (∃ t, exec (.copy false 0x28 0) beforeCall = .next t ∧ t.status ≠ beforeCall.status)
      ∧ ∃ t, exec (.call false 0 0x0C 0 0) beforeCall = .next t ∧ t.status ≠ beforeCall.status :=
  ⟨by decide, ⟨_, rfl⟩, ⟨_, rfl⟩, ⟨_, rfl⟩, ⟨_, rfl, by decide⟩, _, rfl, by decide⟩

theorem witness_RunEndsOnlyByDoneOrError :
    (∃ t, step beforeCall = .next t ∧ t.status = .running) ∧ (∃ t, step State.reset = .next t ∧ t.status = .done)
      ∧ ∃ t, step (running [0xFF]) = .next t ∧ t.status = .error := ⟨⟨_, rfl, rfl⟩, ⟨_, rfl, rfl⟩, _, rfl, rfl⟩

/-! ## Witnesses: invariants -/

/-- The invariant at the root, in a callee, before its end and before a taken resume address, each with a step. -/
theorem witness_StepKeepsInvariant :
    (beforeCall.Inv ∧ ∃ t, step beforeCall = .next t) ∧ (inCallee.Inv ∧ ∃ t, step inCallee = .next t)
      ∧ (atEnd.Inv ∧ ∃ t, step atEnd = .next t) ∧ beforeResume.Inv ∧ ∃ t, step beforeResume = .next t :=
  ⟨⟨by decide, _, rfl⟩, ⟨by decide, _, rfl⟩, ⟨by decide, _, rfl⟩, by decide, _, rfl⟩

theorem witness_PcNeverWraps : inCallee.Inv ∧ ∃ t, step inCallee = .next t := ⟨by decide, _, rfl⟩

theorem witness_StepKeepsResumeBudget :
    inCallee.Inv ∧ callBudget inCallee.frames inCallee.activations ∧ ∃ t, step inCallee = .next t :=
  ⟨by decide, ⟨by decide, by decide, trivial⟩, _, rfl⟩

/-- At the root and about to run an `Abort`. -/
theorem witness_RootNeverTakesResume :
    rootInScope.Inv ∧ callBudget rootInScope.frames rootInScope.activations ∧ rootInScope.callers = []
      ∧ nextInstr rootInScope = some (.abort false) ∧ takesResume beforeResume = true :=
  ⟨by decide, ⟨by decide, trivial⟩, rfl, by decide, by decide⟩

theorem witness_RootFrameIsReachable : inScope.Inv ∧ 2 < inScope.frames.length := by decide

theorem witness_StepKeepsWordsBelow256 :
    inCallee.cfg.resetWord ≤ 255 ∧ inCallee.bytesOnly ∧ ∃ t, step inCallee = .next t :=
  ⟨by decide, by
    simp [State.bytesOnly, Activation.bytesOnly, State.activations, inCallee, beforeCall, running, State.reset, rootFrame,
      argsOf], _, rfl⟩

theorem witness_StepKeepsOutcomeRecord : inCallee.outcomeOk ∧ ∃ t, step inCallee = .next t := ⟨⟨by decide, rfl⟩, _, rfl⟩

/-- One activation below a limit of 2, and two at the limit. -/
theorem witness_DepthLimitIsKept :
    (∃ t, step { beforeCall with cfg := depthTwo } = .next t ∧ t.activations.length = 2)
      ∧ ∃ t, step { inCallee with cfg := depthTwo } = .next t ∧ t.activations.length = 2 := ⟨⟨_, rfl, rfl⟩, _, rfl, rfl⟩

/-- Two live frames below a limit of 3, and three at the limit. -/
theorem witness_LiveFrameLimitIsKept :
    (({ inCallee with cfg := capOf 3 } : State).Inv ∧ ({ inCallee with cfg := capOf 3 } : State).liveFrames = 2
        ∧ ∃ t, step { inCallee with cfg := capOf 3 } = .next t)
      ∧ (({ inScope with cfg := capOf 3 } : State).Inv ∧ ({ inScope with cfg := capOf 3 } : State).liveFrames = 3
        ∧ ∃ t, step { inScope with cfg := capOf 3 } = .next t) :=
  ⟨⟨by decide, by decide, _, rfl⟩, by decide, by decide, _, rfl⟩

/-! ## Witnesses: runs and the host -/

/-- A step forward and a step into a callee. -/
theorem witness_InstructionsMoveForward :
    (inCallee.act.pc < inCallee.len ∧ takesResume inCallee = false ∧ ∃ t, step inCallee = .next t ∧ t.status = .running)
      ∧ (beforeCall.act.pc < beforeCall.len ∧ takesResume beforeCall = false
        ∧ ∃ t, step beforeCall = .next t ∧ t.status = .running) :=
  ⟨⟨by decide, by decide, _, rfl, rfl⟩, by decide, by decide, _, rfl, rfl⟩

theorem witness_RunWithoutCallsEnds :
    (running [0x13, 0x14, 0x1F, 0x02]).status = .running ∧ (running [0x13, 0x14, 0x1F, 0x02]).callers = []
      ∧ (∀ b ∈ (running [0x13, 0x14, 0x1F, 0x02]).im, tagOf b ≠ 0)
      ∧ ∀ f ∈ (running [0x13, 0x14, 0x1F, 0x02]).frames, f.resume = none := by decide

theorem witness_ScopeThenAbortRestoresScope :
    inCallee.Inv ∧ inCallee.status = .running ∧ inCallee.roomForFrame ∧ inCallee.im[inCallee.act.pc]? = some 0x02
      ∧ tagOf 0x02 = 1 ∧ inCallee.im[inCallee.act.pc + 1]? = some 0x04 ∧ tagOf 0x04 = 2 :=
  ⟨by decide, rfl, (fun _ h => by cases h), rfl, by decide, rfl, by decide⟩

theorem witness_EntryScopeHidesArguments :
    exec (.call false 0x00 0x0B 0x00 0x01) beforeCall = .next inCallee ∧ inCallee.depth = beforeCall.depth + 1
      ∧ exec (.scope false) inCallee = .next inScope := ⟨rfl, rfl, rfl⟩

/-- A running core, and an idle one with a stream just too long and with the longest one. -/
theorem witness_LaunchMakesEverythingAnew :
    State.reset.status = .running ∧ (State.powerOn { Config.default with pcBits := 2 }).status ≠ .running
      ∧ 2 ^ (State.powerOn { Config.default with pcBits := 2 }).cfg.pcBits < ([0x14, 0x14, 0x14] : List Byte).length + 2
      ∧ ([0x14, 0x14] : List Byte).length + 2 ≤ 2 ^ (State.powerOn { Config.default with pcBits := 2 }).cfg.pcBits := by decide

/-- A program launched under a configuration with limits and memory contents. -/
theorem witness_LaunchMeetsEveryInvariant :
    let c : Config := { capOf 1 with maxDepth := some 1, memInit := [(7, 0x5A)] }
    c.wellFormed = true ∧ (launch p4 [] (State.powerOn c)).isSome = true := by decide

theorem witness_HostReadsOnlyValidFields :
    State.reset.status = .running ∧ (State.powerOn Config.default).status = .idle := by decide

/-- The last byte of `MEM`, and the first address beyond it. -/
theorem witness_MemWriteReadsBack :
    65534 + ([0x5A] : List Byte).length ≤ memSize ∧ memSize < 65535 + ([0x5A] : List Byte).length ∧ memSize < 65536 + 0
      ∧ State.reset.mem.wf := by decide

end Sys2Proof.Tests
end

/-! The frame store only grows: what each part of a step does to the list of frames (10_state.md R21, R23). -/

namespace Sys2Proof.Machine

variable {s t : State}

@[simp] theorem afterScope_frames (s : State) :
    (afterScope s).frames = s.frames ++ [⟨some s.act.cur, none, s.act.staging⟩] := rfl

@[simp] theorem afterCall_frames (target : Nat) (s : State) :
    (afterCall target s).frames = s.frames ++ [⟨some s.act.cur, some (s.act.pc + 5), s.act.staging⟩] := rfl

/-- Popping moves `CUR` and `PC`; the popped frame itself stays in the store. -/
@[simp] theorem popFrame_frames (f : Frame) (s : State) : (popFrame f s).frames = s.frames := by
  unfold popFrame
  split <;> rfl

theorem regWrite_frames {id : Byte} {v : Word} (h : regWrite id v s = .ok t) : t.frames = s.frames := by
  obtain ⟨_, -, rfl⟩ | ⟨_, -, rfl⟩ | ⟨-, rfl⟩ := regWrite_ok h <;> rfl

theorem activationEnd_frames (h : activationEnd s = .next t) : t.frames = s.frames := by
  obtain ⟨-, rfl⟩ | ⟨c, cs, dst, -, -, ⟨u, hu, rfl⟩ | ⟨-, rfl⟩⟩ := activationEnd_next h
  · rfl
  · simpa using regWrite_frames hu
  · rfl

/-- An instruction keeps the frame store, or appends one frame to it (`Scope` and a `Call` that starts a callee). -/
theorem Effect.frames {i : Instr} (h : Effect s i t) :
    t.frames = s.frames ∨ ∃ f, t.frames = s.frames ++ [f] := by
  cases h with
  | badRead | badWrite | badTarget | advanced | skipped => exact .inl rfl
  | copied _ _ _ _ _ _ _ hu => exact .inl (by simpa using regWrite_frames hu)
  | popped => exact .inl (by simp)
  | pushed => exact .inr ⟨_, afterScope_frames s⟩
  | called => exact .inr ⟨_, afterCall_frames _ s⟩

/-- A step keeps the frame store, or appends one frame to it. -/
theorem step_frames (h : step s = .next t) : t.frames = s.frames ∨ ∃ f, t.frames = s.frames ++ [f] := by
  obtain ⟨-, ⟨-, ⟨_, -, rfl⟩ | ⟨_, _, -, he⟩⟩ | ⟨-, hend⟩⟩ := step_next h
  · exact .inl (raise_frames _ _)
  · exact (exec_next he).frames
  · exact .inl (activationEnd_frames hend)

/-- Settles O32: a step only appends to the frame store, and a reference is a position in it. -/
theorem framesAreImmutable : Obligations.FramesAreImmutable := by
  intro s t h r f hf
  obtain ht | ⟨g, ht⟩ := step_frames h
  · simpa [State.frame?, ht] using hf
  · have hr : r < s.frames.length := (List.getElem?_eq_some_iff.mp hf).1
    rw [State.frame?, ht, List.getElem?_append_left hr]
    exact hf

end Sys2Proof.Machine

/-! `MEM` and the builtin table stand outside every step: each part of a step commutes with replacing the two
(20_memory.md R47, 10_state.md R31). -/

namespace Sys2Proof.Machine

/-- The state with another memory and another builtin table. -/
def State.withMemory (m : Memory) (b : List String) (s : State) : State := { s with mem := m, builtins := b }

/-- An outcome with the state it carries, the next one or a fault's stopped one, changed by a function. -/
def mapOutcome (φ : State → State) : Outcome → Outcome
  | .next t => .next (φ t)
  | .fault f => .fault (f.mapState φ)
  | .refused r => .refused r

variable {s : State} {m : Memory} {b : List String}

/-! ## Every other field, and what is computed from them -/

@[simp] theorem State.withMemory_cfg : (s.withMemory m b).cfg = s.cfg := rfl
@[simp] theorem State.withMemory_im : (s.withMemory m b).im = s.im := rfl
@[simp] theorem State.withMemory_act : (s.withMemory m b).act = s.act := rfl
@[simp] theorem State.withMemory_callers : (s.withMemory m b).callers = s.callers := rfl
@[simp] theorem State.withMemory_status : (s.withMemory m b).status = s.status := rfl
@[simp] theorem State.withMemory_frame? (r : Nat) : (s.withMemory m b).frame? r = s.frame? r := rfl
@[simp] theorem insideStream_withMemory : insideStream (s.withMemory m b) = insideStream s := rfl
@[simp] theorem callTarget_withMemory (raw : Word) : callTarget (s.withMemory m b) raw = callTarget s raw := rfl
@[simp] theorem targetValid_withMemory (t : Nat) : targetValid (s.withMemory m b) t = targetValid s t := rfl
@[simp] theorem operandsInside_withMemory (n : Nat) : operandsInside n (s.withMemory m b) = operandsInside n s := rfl
@[simp] theorem fetch_withMemory : fetch (s.withMemory m b) = fetch s := rfl
@[simp] theorem copySource_withMemory (imm : Bool) (src : Byte) :
    copySource imm src (s.withMemory m b) = copySource imm src s := rfl

/-! ## The shared operations that give a state -/

theorem regWrite_withMemory (id : Byte) (v : Word) :
    regWrite id v (s.withMemory m b) = (regWrite id v s).map (State.withMemory m b) := by
  unfold regWrite
  split_ifs <;> rfl

theorem newFrame_withMemory (f : Frame) :
    newFrame f (s.withMemory m b) = (newFrame f s).map (Prod.map id (State.withMemory m b)) := by
  rw [newFrame, newFrame, apply_ite (Except.map _)]
  rfl

theorem pushActivation_withMemory (a : Activation) :
    pushActivation a (s.withMemory m b) = (pushActivation a s).map (State.withMemory m b) := by
  rw [pushActivation, pushActivation, apply_ite (Except.map _)]
  rfl

theorem popFrame_withMemory (f : Frame) :
    popFrame f (s.withMemory m b) = (popFrame f s).withMemory m b := by
  unfold popFrame
  split <;> rfl

theorem callNormal_withMemory (raw : Word) :
    callNormal raw (s.withMemory m b) = (callNormal raw s).map (State.withMemory m b) := by
  simp only [callNormal, newFrame_withMemory, State.withMemory_cfg, State.withMemory_act, callTarget_withMemory,
    targetValid_withMemory]
  split_ifs
  · rcases newFrame ⟨some s.act.cur, some (s.act.pc + 5), s.act.staging⟩ s with e | ⟨r, u⟩
    · rfl
    · exact pushActivation_withMemory _
  · rfl

/-! ## The handlers -/

theorem execCall_withMemory (imm : Bool) (cs t0 t1 dst : Byte) :
    execCall imm cs t0 t1 dst (s.withMemory m b)
      = mapOutcome (State.withMemory m b) (execCall imm cs t0 t1 dst s) := by
  simp only [execCall, operandsInside_withMemory, callNormal_withMemory, State.withMemory_cfg]
  rcases ho : operandsInside 4 s with e | _
  · obtain ⟨-, rfl⟩ := operandsInside_error ho
    rfl
  simp only [bind_ok]
  split_ifs
  · rfl
  · rcases hc : callNormal (callTargetRaw s.cfg t0 t1) s with e | t
    · obtain ⟨-, rfl⟩ | ⟨-, rfl, -⟩ := callNormal_error hc <;> rfl
    · rfl
  · rfl

theorem execScope_withMemory (imm : Bool) :
    execScope imm (s.withMemory m b) = mapOutcome (State.withMemory m b) (execScope imm s) := by
  simp only [execScope, newFrame_withMemory, State.withMemory_act]
  rcases hf : newFrame ⟨some s.act.cur, none, s.act.staging⟩ s with e | ⟨r, u⟩
  · obtain ⟨-, rfl⟩ := newFrame_error hf
    rfl
  · rfl

theorem execAbort_withMemory (imm : Bool) :
    execAbort imm (s.withMemory m b) = mapOutcome (State.withMemory m b) (execAbort imm s) := by
  simp only [execAbort, State.withMemory_frame?, State.withMemory_act, popFrame_withMemory]
  split <;> rfl

theorem execCopy_withMemory (imm : Bool) (src dst : Byte) :
    execCopy imm src dst (s.withMemory m b) = mapOutcome (State.withMemory m b) (execCopy imm src dst s) := by
  simp only [execCopy, operandsInside_withMemory, copySource_withMemory, regWrite_withMemory]
  rcases ho : operandsInside 2 s with e | _
  · obtain ⟨-, rfl⟩ := operandsInside_error ho
    rfl
  rcases hv : copySource imm src s with e | v
  · obtain ⟨-, -, rfl⟩ | ⟨-, rfl⟩ := copySource_error hv <;> rfl
  simp only [bind_ok]
  rcases hw : regWrite dst v s with e | u
  · obtain ⟨-, rfl⟩ := regWrite_error hw
    rfl
  · rfl

/-- No instruction reads or writes `MEM` or the builtin table (20_memory.md R47). -/
theorem exec_withMemory (i : Instr) :
    exec i (s.withMemory m b) = mapOutcome (State.withMemory m b) (exec i s) := by
  cases i with
  | call imm cs t0 t1 dst => exact execCall_withMemory imm cs t0 t1 dst
  | scope imm => exact execScope_withMemory imm
  | abort imm => exact execAbort_withMemory imm
  | copy imm src dst => exact execCopy_withMemory imm src dst
  | mset | mget | cmp | jump | tjmp | fjmp | add | sub | mul | div => rfl

/-! ## The step -/

/-- Why a fetch gives no instruction. -/
theorem fetch_error {e : Stop} (h : fetch s = .error e) :
    (∃ c : Byte, e = .error ⟨.invalidOpcode, c.setWidth 16, .none⟩) ∨ e = .check .truncated := by
  unfold fetch at h
  split at h <;> cases h
  · exact .inl ⟨_, rfl⟩
  · exact .inr rfl

theorem instructionStep_withMemory :
    instructionStep (s.withMemory m b) = mapOutcome (State.withMemory m b) (instructionStep s) := by
  simp only [instructionStep, fetch_withMemory]
  rcases hf : fetch s with e | i
  · obtain ⟨c, rfl⟩ | rfl := fetch_error hf <;> rfl
  · exact exec_withMemory i

theorem activationEnd_withMemory :
    activationEnd (s.withMemory m b) = mapOutcome (State.withMemory m b) (activationEnd s) := by
  simp only [activationEnd, State.withMemory_callers, State.withMemory_im, State.withMemory_act]
  rcases s.callers with _ | ⟨c, cs⟩
  · rfl
  dsimp only
  rcases s.im[c.pc + 4]? with _ | dst
  · rfl
  have hpop : popActivation c cs (s.withMemory m b) = (popActivation c cs s).withMemory m b := rfl
  simp only [hpop, regWrite_withMemory]
  rcases hw : regWrite dst s.act.ret (popActivation c cs s) with e | u
  · obtain ⟨-, rfl⟩ := regWrite_error hw
    rfl
  · rfl

/-- A step commutes with replacing `MEM` and the builtin table. -/
theorem step_withMemory (m : Memory) (b : List String) (s : State) :
    step (s.withMemory m b) = mapOutcome (State.withMemory m b) (step s) := by
  simp only [step, State.withMemory_status, insideStream_withMemory, instructionStep_withMemory,
    activationEnd_withMemory]
  cases s.status with
  | running => exact (apply_ite _ _ _ _).symm
  | idle | done | error | undefined => rfl

/-- Settles O31: a step commutes with replacing `MEM` and the builtin table. That it leaves the two unchanged is the
case in which they are replaced by themselves. -/
theorem memoryAndBuiltinsAreNeverTouched : Obligations.MemoryAndBuiltinsAreNeverTouched := by
  intro s m b
  refine ⟨fun t ht => ?_, fun f hf => ?_⟩
  · have hself : t.withMemory s.mem s.builtins = t := by
      simpa [State.withMemory, mapOutcome, ht] using (step_withMemory s.mem s.builtins s).symm
    have hother := step_withMemory m b s
    rw [ht] at hother
    exact ⟨(congrArg State.mem hself).symm, (congrArg State.builtins hself).symm, hother, rfl⟩
  · have hother := step_withMemory m b s
    rwa [hf] at hother

end Sys2Proof.Machine

/-! An opcode byte with an undefined tag: the decoder hands it back whole, and the step raises `InvalidOpcode` with it
(30_encoding.md R68, 40_decode_dispatch.md R82). -/

namespace Sys2Proof

/-- The fourteen defined tags are the bytes up to `0x1B`. -/
theorem numTags_le_tagOf_iff {b : Byte} : numTags ≤ tagOf b ↔ 0x1C ≤ b.toNat := by
  rw [tagOf_eq, numTags]
  omega

/-- An undefined tag is found before any operand is looked at, so the bytes behind it do not matter. -/
theorem decode_of_numTags_le_tagOf {b : Byte} (h : numTags ≤ tagOf b) (rest : List Byte) :
    decode (b :: rest) = .invalidOpcode b := by
  rw [numTags] at h
  simp only [decode]
  split
  case h_17 => rfl
  all_goals omega

end Sys2Proof

namespace Sys2Proof.Machine

variable {s : State}

/-- The byte at `A.PC` is the one the decoder sees first. -/
theorem im_drop_pc_eq_cons {b : Byte} (h : s.im[s.act.pc]? = some b) :
    s.im.drop s.act.pc = b :: s.im.drop (s.act.pc + 1) := by
  obtain ⟨hlt, rfl⟩ := List.getElem?_eq_some_iff.mp h
  exact List.drop_eq_getElem_cons hlt

/-- The loop test passes where there is a byte at `A.PC`, so a running core makes an instruction step (R80, R81). -/
theorem step_eq_instructionStep {b : Byte} (hr : s.status = .running) (h : s.im[s.act.pc]? = some b) :
    step s = instructionStep s := by
  have hlt : s.act.pc < s.len := (List.getElem?_eq_some_iff.mp h).1
  simp [step, hr, insideStream, hlt]

theorem instructionStep_of_invalidOpcode {b : Byte} (h : decode (s.im.drop s.act.pc) = .invalidOpcode b) :
    instructionStep s = .next (raise ⟨.invalidOpcode, b.setWidth 16, .none⟩ s) := by
  simp [instructionStep, fetch, h, stopOutcome]

/-- Settles O7: the decoder answers the whole byte, and the step is the raise of it. -/
theorem invalidOpcodeByteRaises : Obligations.InvalidOpcodeByteRaises := by
  intro s b hr hb hge
  have hdec : decode (s.im.drop s.act.pc) = .invalidOpcode b := by
    rw [im_drop_pc_eq_cons hb]
    exact decode_of_numTags_le_tagOf (numTags_le_tagOf_iff.mpr hge) _
  rw [step_eq_instructionStep hr hb, instructionStep_of_invalidOpcode hdec]
  rfl

end Sys2Proof.Machine

/-! The register paths id by id, and what a read gives after writes, after a `Scope` and in a callee
(41_register_access.md R100 to R104). -/

namespace Sys2Proof.Machine

variable {s t : State} {id : Byte} {v : Word}

/-! ## The maps of ids -/

theorem regRead_general (h : id.toNat < 32) : regRead id s = .ok s.act.g[id.toNat] := dif_pos h

theorem regRead_argument {f : Frame} (h32 : 32 ≤ id.toNat) (h40 : id.toNat < 40) (hf : s.frame? s.act.cur = some f) :
    regRead id s = .ok f.args[id.toNat - 32] := by
  simp only [regRead, Nat.not_lt.mpr h32, h40, dite_false, dite_true, hf]

theorem regRead_unreadable (h : 40 ≤ id.toNat) : regRead id s = .error (.error (badRegister id .read)) := by
  have h32 : ¬ id.toNat < 32 := by omega
  simp only [regRead, h32, Nat.not_lt.mpr h, dite_false]

theorem regWrite_general (h : id.toNat < 32) : regWrite id v s = .ok (s.setG ⟨id.toNat, h⟩ v) := dif_pos h

theorem regWrite_staging (h32 : 32 ≤ id.toNat) (h40 : id.toNat < 40) :
    regWrite id v s = .ok (s.setStaging ⟨id.toNat - 32, by omega⟩ v) := by
  simp only [regWrite, Nat.not_lt.mpr h32, h40, dite_false, dite_true]

theorem regWrite_return (h : id.toNat = 40) : regWrite id v s = .ok (s.setRet v) := by
  simp [regWrite, h]

theorem regWrite_unwritable (h : 41 ≤ id.toNat) : regWrite id v s = .error (.error (badRegister id .write)) := by
  have h32 : ¬ id.toNat < 32 := by omega
  have h40 : ¬ id.toNat < 40 := by omega
  have hret : ¬ id.toNat = 40 := by omega
  simp only [regWrite, h32, h40, hret, dite_false, if_false]

/-- Settles O11: the three ranges of R100 are the three branches of the read. -/
theorem regReadFollowsIdMap : Obligations.RegReadFollowsIdMap := fun _ _ =>
  ⟨regRead_general, fun _ h40 h32 hf => regRead_argument h32 h40 hf, regRead_unreadable⟩

/-- Settles O12: the four ranges of R101 are the four branches of the write. -/
theorem regWriteFollowsIdMap : Obligations.RegWriteFollowsIdMap := fun _ _ _ =>
  ⟨regWrite_general, fun h40 h32 => regWrite_staging h32 h40, regWrite_return, regWrite_unwritable⟩

/-! ## Reads after writes -/

/-- A read from id 32 up looks at the current frame only. -/
theorem regRead_congr_frame (h : 32 ≤ id.toNat) (hcur : t.act.cur = s.act.cur) (hfr : t.frames = s.frames) :
    regRead id t = regRead id s := by
  simp only [regRead, Nat.not_lt.mpr h, dite_false, State.frame?, hcur, hfr]

theorem regWrite_cur (h : regWrite id v s = .ok t) : t.act.cur = s.act.cur := by
  obtain ⟨_, -, rfl⟩ | ⟨_, -, rfl⟩ | ⟨-, rfl⟩ := regWrite_ok h <;> rfl

/-- Writing another id leaves a general register as it was. -/
theorem regWrite_g_ne {w : Byte} (hw : regWrite w v s = .ok t) (h : id.toNat < 32) (hne : w ≠ id) :
    t.act.g[id.toNat] = s.act.g[id.toNat] := by
  obtain ⟨i, hi, rfl⟩ | ⟨_, -, rfl⟩ | ⟨-, rfl⟩ := regWrite_ok hw
  · have hi' : i.val ≠ id.toNat := fun heq => hne (BitVec.eq_of_toNat_eq (hi.symm.trans heq))
    exact Vector.getElem_set_ne i.isLt h hi'
  · rfl
  · rfl

/-- Only a general register is read where it is written: no other read changes by a write, of the same id or of another. -/
theorem regRead_regWrite {w : Byte} (hw : regWrite w v s = .ok t) (hne : id.toNat < 32 → w ≠ id) :
    regRead id t = regRead id s := by
  obtain h | h := Nat.lt_or_ge id.toNat 32
  · rw [regRead_general h, regRead_general h, regWrite_g_ne hw h (hne h)]
  · exact regRead_congr_frame h (regWrite_cur hw) (regWrite_frames hw)

theorem regRead_regWrites {ws : List (Byte × Word)} (hws : regWrites ws s = .ok t)
    (hne : id.toNat < 32 → ∀ w ∈ ws, w.1 ≠ id) : regRead id t = regRead id s := by
  induction ws generalizing s with
  | nil =>
    cases hws
    rfl
  | cons w ws ih =>
    simp only [regWrites] at hws
    split at hws
    · rename_i u hu
      calc regRead id t = regRead id u := ih hws fun h x hx => hne h x (List.mem_cons_of_mem w hx)
        _ = regRead id s := regRead_regWrite hu fun h => hne h w List.mem_cons_self
    · cases hws

/-- Settles O13: the write sets the register, and no write to another id changes a read of it. -/
theorem generalRegisterRoundTrip : Obligations.GeneralRegisterRoundTrip := by
  intro s id v h
  refine ⟨_, regWrite_general h, fun ws u hne hws => ?_, fun j hj => ?_, rfl, rfl⟩
  · rw [regRead_regWrites hws fun _ => hne, regRead_general h, State.setG_act_g, Vector.getElem_set_self]
  · exact Vector.getElem_set_ne h j.isLt hj.symm

/-! ## The staging area becomes the arguments of a new frame -/

theorem regRead_afterScope (h32 : 32 ≤ id.toNat) (h40 : id.toNat < 40) :
    regRead id (afterScope s) = .ok s.act.staging[id.toNat - 32] :=
  regRead_argument (f := ⟨some s.act.cur, none, s.act.staging⟩) h32 h40 List.getElem?_concat_length

theorem regRead_afterCall (target : Nat) (h32 : 32 ≤ id.toNat) (h40 : id.toNat < 40) :
    regRead id (afterCall target s) = .ok s.act.staging[id.toNat - 32] :=
  regRead_argument (f := ⟨some s.act.cur, some (s.act.pc + 5), s.act.staging⟩) h32 h40 List.getElem?_concat_length

theorem exec_scope_next {imm : Bool} (h : exec (.scope imm) s = .next t) : t = afterScope s := by
  cases exec_next h with
  | advanced _ htag => simp [Instr.tag] at htag
  | pushed => rfl

/-- Of what a `Call` can do, only starting a callee makes the stack deeper. -/
theorem exec_call_deeper {imm : Bool} {cs t0 t1 dst : Byte} (h : exec (.call imm cs t0 t1 dst) s = .next t)
    (hd : t.depth = s.depth + 1) : ∃ target, t = afterCall target s := by
  cases exec_next h with
  | badTarget | skipped => simp at hd
  | advanced _ htag => simp [Instr.tag] at htag
  | called => exact ⟨_, rfl⟩

/-- Settles O14: no register write changes what ids 32 to 39 read, and the frame that a `Scope` or a `Call` makes has the
staging area, with the word written in it, as its arguments. -/
theorem argumentIdsSeparateReadAndWrite : Obligations.ArgumentIdsSeparateReadAndWrite := by
  intro s id v h32 h40
  have hw := regWrite_staging (v := v) (s := s) h32 h40
  refine ⟨_, hw, fun ws u hws => ?_, fun imm u hu => ?_, fun imm cs t0 t1 dst u hu hd => ?_⟩
  · have hge : ¬ id.toNat < 32 := Nat.not_lt.mpr h32
    rw [regRead_regWrites hws fun h => absurd h hge, regRead_regWrite hw fun h => absurd h hge]
  · rw [exec_scope_next hu, regRead_afterScope h32 h40, State.setStaging_act_staging, Vector.getElem_set_self]
  · obtain ⟨target, rfl⟩ := exec_call_deeper hu hd
    rw [regRead_afterCall target h32 h40, State.setStaging_act_staging, Vector.getElem_set_self]

end Sys2Proof.Machine

/-! `Scope`: the byte that decodes to it, the room it needs, and its two outcomes (43_scope_abort.md R130, R131,
60_exceptions.md R188). -/

namespace Sys2Proof

/-- `Scope`'s tag alone decides the decoding: no byte behind the opcode byte matters. -/
theorem decode_opcodeByte_scope (imm : Bool) (rest : List Byte) :
    decode (opcodeByte 1 imm :: rest) = .ok (.scope imm) rest := by
  have htag : tagOf (opcodeByte 1 imm) = 1 := tagOf_opcodeByte imm (by decide)
  simp only [decode, htag, immOf_opcodeByte]

end Sys2Proof

namespace Sys2Proof.Machine

variable {s : State}

theorem instructionStep_of_decode {i : Instr} {rest : List Byte} (h : decode (s.im.drop s.act.pc) = .ok i rest) :
    instructionStep s = exec i s := by
  rw [instructionStep, fetch_of_decode h]

/-- A number is below every limit that there is exactly when it does not reach the limit. -/
theorem atLimit_eq_false_iff {limit : Option Nat} {n : Nat} :
    atLimit limit n = false ↔ ∀ m, limit = some m → n < m := by
  cases limit <;> simp

theorem State.roomForFrame_iff : s.roomForFrame ↔ atLimit s.cfg.frameCap s.liveFrames = false :=
  atLimit_eq_false_iff.symm

theorem newFrame_of_not_roomForFrame (f : Frame) (h : ¬ s.roomForFrame) :
    newFrame f s = .error (.check .depth) := by
  rw [State.roomForFrame_iff, Bool.not_eq_false] at h
  exact if_pos h

theorem exec_scope_of_roomForFrame (imm : Bool) (h : s.roomForFrame) : exec (.scope imm) s = .next (afterScope s) :=
  exec_of_effect (.pushed imm (State.roomForFrame_iff.mp h))

/-- Without room the stop is met before `CUR` or `PC` moves, so the fault carries the state as it stood. -/
theorem exec_scope_of_not_roomForFrame (imm : Bool) (h : ¬ s.roomForFrame) :
    exec (.scope imm) s = .fault (machineCheck .depth s) := by
  rw [exec, execScope, newFrame_of_not_roomForFrame _ h]
  rfl

/-- Settles O17: both bytes are `Scope`'s opcode byte, and whether there is room decides between its effect and the
machine check. -/
theorem scopePushesFrame : Obligations.ScopePushesFrame := by
  intro s imm
  refine ⟨fun hr hb => ?_, exec_scope_of_roomForFrame imm, exec_scope_of_not_roomForFrame imm⟩
  have hbyte : (if imm then 0x03 else 0x02) = opcodeByte 1 imm := by cases imm <;> rfl
  have hdec : decode (s.im.drop s.act.pc) = .ok (.scope imm) (s.im.drop (s.act.pc + 1)) := by
    rw [im_drop_pc_eq_cons hb, hbyte, decode_opcodeByte_scope]
  rw [step_eq_instructionStep hr hb, instructionStep_of_decode hdec]

end Sys2Proof.Machine

/-! `Copy`: the bytes that decode to it, the value of its source, and its outcomes by the ids that it names
(44_copy.md R145 to R147). -/

namespace Sys2Proof

/-- With both operand bytes there, `Copy`'s tag decides the decoding (30_encoding.md R67). -/
theorem decode_opcodeByte_copy (imm : Bool) (src dst : Byte) (rest : List Byte) :
    decode (opcodeByte 9 imm :: src :: dst :: rest) = .ok (.copy imm src dst) rest := by
  have htag : tagOf (opcodeByte 9 imm) = 9 := tagOf_opcodeByte imm (by decide)
  simp only [decode, htag, immOf_opcodeByte]

end Sys2Proof

namespace Sys2Proof.Machine

variable {s t : State} {imm : Bool} {src dst : Byte} {v : Word}

/-- `Copy` obtains exactly the value of its source operand: the zero-extended byte is the one word with the literal's
value (decision D13, log 37). -/
theorem copySource_eq_ok_iff : copySource imm src s = .ok v ↔ SourceValue imm src s v := by
  cases imm with
  | false => simp [copySource, SourceValue]
  | true =>
    have hval : src.setWidth 16 = v ↔ v.toNat = src.toNat := by
      rw [eq_comm, ← BitVec.toNat_inj, BitVec.toNat_setWidth_of_le (by decide)]
    simpa [copySource, SourceValue] using hval

/-- A cut-off `Copy` stops before anything is read (decision D11, log 23). -/
theorem exec_copy_of_cutOff (h : s.len ≤ s.act.pc + 2) :
    exec (.copy imm src dst) s = .fault (machineCheck .truncated s) := by
  rw [exec, execCopy, operandsInside_of_le h]
  rfl

/-- With its operands in the stream, `Copy` gives its source value to the register write and then moves `PC` on. -/
theorem exec_copy_of_regWrite (h : s.act.pc + 2 < s.len) (hv : SourceValue imm src s v)
    (hw : regWrite dst v s = .ok t) : exec (.copy imm src dst) s = .next (t.setPc (s.act.pc + 3)) :=
  exec_of_effect (.copied imm src dst v t h (copySource_eq_ok_iff.mpr hv) hw)

/-- Settles O15: the two opcode bytes decode to `Copy`; it stops at the operand extent, then at the source, then at the
destination (R147), and what it writes is the register write's map of ids (R101). -/
theorem copyMovesSourceToDestination : Obligations.CopyMovesSourceToDestination := by
  intro s imm src dst
  refine ⟨fun hr hb hsrc hdst => ?encoding, exec_copy_of_cutOff, fun h himm hs => ?badRead,
    fun h v hv hd => ?badWrite, fun h v hv hd => ?general, fun h v hv hd hge => ?staging, fun h v hv hd => ?ret⟩
  case encoding =>
    have hbyte : (if imm then 0x13 else 0x12) = opcodeByte 9 imm := by cases imm <;> rfl
    have hdec : decode (s.im.drop s.act.pc) = .ok (.copy imm src dst) (s.im.drop (s.act.pc + 3)) := by
      rw [im_drop_pc_eq_cons hb, List.drop_eq_getElem?_toList_append, hsrc, List.drop_eq_getElem?_toList_append, hdst,
        hbyte]
      exact decode_opcodeByte_copy imm src dst _
    rw [step_eq_instructionStep hr hb, instructionStep_of_decode hdec]
  case badRead =>
    subst himm
    exact exec_of_effect (.badRead src dst h hs)
  case badWrite => exact exec_of_effect (.badWrite imm src dst v h (copySource_eq_ok_iff.mpr hv) hd)
  case general => exact exec_copy_of_regWrite h hv (regWrite_general hd)
  case staging => exact exec_copy_of_regWrite h hv (regWrite_staging hge hd)
  case ret => exact exec_copy_of_regWrite h hv (regWrite_return hd)

end Sys2Proof.Machine

/-! The ten unspecified opcodes: the instructions that they are, the bytes that decode to them, and their one effect
(45_unspecified_opcodes.md R155 to R165). -/

namespace Sys2Proof

/-- The ten declared-but-unspecified instructions with one flag (R155 to R164). -/
def unspecifiedInstrs (imm : Bool) : List Instr :=
  [.mset imm, .mget imm, .cmp imm, .jump imm, .tjmp imm, .fjmp imm, .add imm, .sub imm, .mul imm, .div imm]

/-- They are the instructions from tag 3 up, without `Copy`. -/
theorem mem_unspecifiedInstrs_iff {i : Instr} {imm : Bool} :
    i ∈ unspecifiedInstrs imm ↔ 3 ≤ i.tag ∧ i.tag ≠ 9 ∧ i.imm = imm := by
  cases i <;> simp [unspecifiedInstrs, Instr.tag, Instr.imm]

/-- Only `Call` and `Copy` have operands: any other instruction is decoded from its opcode byte alone, whatever bytes
follow (30_encoding.md R67). -/
theorem decode_opcodeByte_of_tag_ne {i : Instr} (hcall : i.tag ≠ 0) (hcopy : i.tag ≠ 9) (rest : List Byte) :
    decode (opcodeByte i.tag i.imm :: rest) = .ok i rest := by
  have htag : tagOf (opcodeByte i.tag i.imm) = i.tag := tagOf_opcodeByte i.imm (i.tag_lt.trans (by decide))
  have himm : immOf (opcodeByte i.tag i.imm) = i.imm := immOf_opcodeByte i.tag i.imm
  generalize opcodeByte i.tag i.imm = b at htag himm
  cases i with
  | call => exact absurd rfl hcall
  | copy => exact absurd rfl hcopy
  | scope | abort | mset | mget | cmp | jump | tjmp | fjmp | add | sub | mul | div =>
    simp only [decode, htag, himm, Instr.tag, Instr.imm]

end Sys2Proof

namespace Sys2Proof.Machine

variable {s : State}

/-- A running core executes an instruction without operands where its opcode byte is at `A.PC`. -/
theorem step_eq_exec_of_tag_ne {i : Instr} (hcall : i.tag ≠ 0) (hcopy : i.tag ≠ 9) (hr : s.status = .running)
    (hb : s.im[s.act.pc]? = some (opcodeByte i.tag i.imm)) : step s = exec i s := by
  have hdec : decode (s.im.drop s.act.pc) = .ok i (s.im.drop (s.act.pc + 1)) := by
    rw [im_drop_pc_eq_cons hb, decode_opcodeByte_of_tag_ne hcall hcopy]
  rw [step_eq_instructionStep hr hb, instructionStep_of_decode hdec]

/-- Settles O16: the one effect of an instruction of these tags is the advance, and its opcode byte decodes to it. -/
theorem unspecifiedOpcodesOnlyAdvance : Obligations.UnspecifiedOpcodesOnlyAdvance := by
  intro s imm i hi
  obtain ⟨htag, hcopy, rfl⟩ := mem_unspecifiedInstrs_iff.mp hi
  have hexec : exec i s = .next (s.setPc (s.act.pc + 1)) := exec_of_effect (.advanced i htag hcopy)
  have hcall : i.tag ≠ 0 := by omega
  exact ⟨hexec, fun hr hb => (step_eq_exec_of_tag_ne hcall hcopy hr hb).trans hexec⟩

end Sys2Proof.Machine

/-! Errors: a step that leaves `STATUS` ERROR is a raise, and a `Call` of a byte that is no `Scope` is one
(60_exceptions.md R173, R175). -/

namespace Sys2Proof.Machine

variable {s t : State}

theorem step_of_not_running (h : s.status ≠ .running) : step s = .fault (.notRunning s.status) := by
  unfold step
  cases hs : s.status with
  | running => exact absurd hs h
  | idle | done | error | undefined => rfl

/-! ## What can change `STATUS` -/

@[simp] theorem popFrame_status (f : Frame) (s : State) : (popFrame f s).status = s.status := by
  unfold popFrame
  split <;> rfl

theorem regWrite_status {id : Byte} {v : Word} (h : regWrite id v s = .ok t) : t.status = s.status := by
  obtain ⟨_, -, rfl⟩ | ⟨_, -, rfl⟩ | ⟨-, rfl⟩ := regWrite_ok h <;> rfl

/-- An instruction keeps `STATUS`, or it raises. -/
theorem Effect.status_eq_or_raise {i : Instr} (h : Effect s i t) : t.status = s.status ∨ ∃ d, t = raise d s := by
  cases h with
  | badRead | badWrite | badTarget => exact .inr ⟨_, rfl⟩
  | advanced | skipped | pushed | called => exact .inl rfl
  | popped => exact .inl (popFrame_status _ s)
  | copied _ _ _ _ _ _ _ hu => exact .inl (by simpa using regWrite_status hu)

/-- The end of a root makes `STATUS` DONE; the end of a callee keeps it, or raises in the caller (decision D32, log 31). -/
theorem activationEnd_status_eq_or_raise (h : activationEnd s = .next t) :
    t.status = .done ∨ t.status = s.status ∨
      ∃ d c cs, s.callers = c :: cs ∧ t = raise d (popActivation c cs s) := by
  obtain ⟨-, rfl⟩ | ⟨c, cs, dst, hc, -, ⟨u, hu, rfl⟩ | ⟨-, rfl⟩⟩ := activationEnd_next h
  · exact .inl rfl
  · exact .inr (.inl (by simpa using regWrite_status hu))
  · exact .inr (.inr ⟨_, c, cs, hc, rfl⟩)

/-- A step that leaves `STATUS` ERROR is a raise: in the state before it, or in that state with the ended callee popped. -/
theorem step_error_is_raise (h : step s = .next t) (ht : t.status = .error) :
    ∃ d, t = raise d s ∨ ∃ c cs, s.callers = c :: cs ∧ s.len ≤ s.act.pc ∧ t = raise d (popActivation c cs s) := by
  obtain ⟨hr, ⟨-, ⟨b, -, rfl⟩ | ⟨i, _, -, he⟩⟩ | ⟨hpc, hend⟩⟩ := step_next h
  · exact ⟨_, .inl rfl⟩
  · obtain hs | ⟨d, rfl⟩ := (exec_next he).status_eq_or_raise
    · simp [ht, hr] at hs
    · exact ⟨d, .inl rfl⟩
  · obtain hs | hs | ⟨d, c, cs, hc, rfl⟩ := activationEnd_status_eq_or_raise hend
    · simp [ht] at hs
    · simp [ht, hr] at hs
    · exact ⟨d, .inr ⟨c, cs, hc, hpc, rfl⟩⟩

/-- Nothing steps after a raise: `STATUS` is not RUNNING. -/
theorem step_raise (d : Diag) (s : State) : step (raise d s) = .fault (.notRunning .error) :=
  step_of_not_running (by simp)

/-- Settles O10: the record is the definition of the raise, the core stands still in ERROR, and of all that a step can do
only a raise makes `STATUS` ERROR. -/
theorem raisedErrorIsRecordedAndEndsTheRun : Obligations.RaisedErrorIsRecordedAndEndsTheRun := by
  refine ⟨fun d s => ⟨rfl, fun t ht => ?_⟩, fun _ _ => step_error_is_raise⟩
  rw [step_raise] at ht
  cases ht

/-! ## A `Call` of no `Scope` -/

/-- A target is no valid one where the stream has no byte, or a byte without `Scope`'s tag (decision D9, log 25). -/
theorem targetValid_eq_false_iff {target : Nat} :
    targetValid s target = false ↔ ∀ b, s.im[target]? = some b → tagOf b ≠ 1 := by
  unfold targetValid
  cases s.im[target]? <;> simp

/-- Settles O23: such a `Call` has the one effect `badTarget`, which asks for no room. -/
theorem callOfNoScopeRaises : Obligations.CallOfNoScopeRaises := by
  intro s imm t0 t1 dst hlen hne htarget
  exact exec_of_effect (.badTarget imm _ t0 t1 dst hlen rfl hne (targetValid_eq_false_iff.mpr htarget))

end Sys2Proof.Machine

/-! The decoder and the encoder are inverse to each other: the tag decides the operand bytes, and an opcode byte is
made of its tag and its flag (30_encoding.md sections 1 to 5). -/

namespace Sys2Proof

/-- With its four operand bytes there, `Call`'s tag decides the decoding (30_encoding.md R67). -/
theorem decode_opcodeByte_call (imm : Bool) (cs t0 t1 dst : Byte) (rest : List Byte) :
    decode (opcodeByte 0 imm :: cs :: t0 :: t1 :: dst :: rest) = .ok (.call imm cs t0 t1 dst) rest := by
  have htag : tagOf (opcodeByte 0 imm) = 0 := tagOf_opcodeByte imm (by decide)
  simp only [decode, htag, immOf_opcodeByte]

/-- Only `Call` and `Copy` have operands. -/
theorem Instr.operands_eq_nil {i : Instr} (hcall : i.tag ≠ 0) (hcopy : i.tag ≠ 9) : i.operands = [] := by
  cases i with
  | call => exact absurd rfl hcall
  | copy => exact absurd rfl hcopy
  | scope | abort | mset | mget | cmp | jump | tjmp | fjmp | add | sub | mul | div => rfl

theorem decode_encode (i : Instr) (rest : List Byte) : decode (encode i ++ rest) = .ok i rest := by
  by_cases hcall : i.tag = 0
  · cases i with
    | call imm cs t0 t1 dst => exact decode_opcodeByte_call imm cs t0 t1 dst rest
    | _ => cases hcall
  by_cases hcopy : i.tag = 9
  · cases i with
    | copy imm src dst => exact decode_opcodeByte_copy imm src dst rest
    | _ => cases hcopy
  rw [encode, Instr.operands_eq_nil hcall hcopy]
  exact decode_opcodeByte_of_tag_ne hcall hcopy rest

/-- Settles O1: `Call` and `Copy` find their operand bytes, and every other opcode byte stands alone. -/
theorem decodeOfEncodeGivesInstrBack : Obligations.DecodeOfEncodeGivesInstrBack := decode_encode

/-! ## The bytes that decode -/

/-- Each of the twelve instructions without operands is named by its tag. -/
theorem exists_instr_of_tag {tag : Nat} (htag : tag < 14) (hcall : tag ≠ 0) (hcopy : tag ≠ 9) (imm : Bool) :
    ∃ i : Instr, i.tag = tag ∧ i.imm = imm := by
  interval_cases tag
  exacts [absurd rfl hcall, ⟨.scope imm, rfl, rfl⟩, ⟨.abort imm, rfl, rfl⟩, ⟨.mset imm, rfl, rfl⟩,
    ⟨.mget imm, rfl, rfl⟩, ⟨.cmp imm, rfl, rfl⟩, ⟨.jump imm, rfl, rfl⟩, ⟨.tjmp imm, rfl, rfl⟩, ⟨.fjmp imm, rfl, rfl⟩,
    absurd rfl hcopy, ⟨.add imm, rfl, rfl⟩, ⟨.sub imm, rfl, rfl⟩, ⟨.mul imm, rfl, rfl⟩, ⟨.div imm, rfl, rfl⟩]

theorem operandBytes_eq_zero {tag : Nat} (hcall : tag ≠ 0) (hcopy : tag ≠ 9) : operandBytes tag = 0 := by
  unfold operandBytes
  split <;> simp_all

/-- A defined tag, a flag and as many operand bytes as the tag asks for are those of an instruction. -/
theorem exists_instr {tag : Nat} (htag : tag < 14) (imm : Bool) {ops : List Byte}
    (hops : ops.length = operandBytes tag) : ∃ i : Instr, i.tag = tag ∧ i.imm = imm ∧ i.operands = ops := by
  by_cases hcall : tag = 0
  · subst hcall
    obtain ⟨cs, t0, t1, dst, rfl⟩ := List.length_eq_four.mp hops
    exact ⟨.call imm cs t0 t1 dst, rfl, rfl, rfl⟩
  by_cases hcopy : tag = 9
  · subst hcopy
    obtain ⟨src, dst, rfl⟩ := List.length_eq_two.mp hops
    exact ⟨.copy imm src dst, rfl, rfl, rfl⟩
  obtain ⟨i, rfl, rfl⟩ := exists_instr_of_tag htag hcall hcopy imm
  rw [operandBytes_eq_zero hcall hcopy, List.length_eq_zero_iff] at hops
  exact ⟨i, rfl, rfl, by rw [hops, Instr.operands_eq_nil hcall hcopy]⟩

/-- With enough bytes behind a defined opcode byte, the bytes are an encoding. -/
theorem exists_encode_eq {b : Byte} {rest : List Byte} (htag : tagOf b < 14)
    (hlen : operandBytes (tagOf b) ≤ rest.length) :
    ∃ i : Instr, b :: rest = encode i ++ rest.drop (operandBytes (tagOf b)) ∧ i.tag = tagOf b ∧ i.imm = immOf b
      ∧ i.operands = rest.take (operandBytes (tagOf b)) := by
  obtain ⟨i, hi, himm, hops⟩ := exists_instr htag (immOf b) (List.length_take_of_le hlen)
  exact ⟨i, by simp [encode, hi, himm, hops, opcodeByte_fields], hi, himm, hops⟩

/-- An opcode byte with fewer bytes behind it than its tag asks for is cut off. -/
theorem decode_of_length_lt {b : Byte} {rest : List Byte} (hlen : rest.length < operandBytes (tagOf b)) :
    decode (b :: rest) = .truncated := by
  by_cases hcall : tagOf b = 0
  · match rest, hlen with
    | [], _ | [_], _ | [_, _], _ | [_, _, _], _ => simp only [decode, hcall]
    | _ :: _ :: _ :: _ :: _, hlen => simp +arith [hcall, operandBytes] at hlen
  by_cases hcopy : tagOf b = 9
  · match rest, hlen with
    | [], _ | [_], _ => simp only [decode, hcopy]
    | _ :: _ :: _, hlen => simp +arith [hcopy, operandBytes] at hlen
  rw [operandBytes_eq_zero hcall hcopy] at hlen
  exact absurd hlen (Nat.not_lt_zero _)

/-- Settles O3: bytes enough are an encoding, which decodes; too few are cut off; an undefined tag is found first. -/
theorem tagAloneDecidesDecoding : Obligations.TagAloneDecidesDecoding := by
  refine fun b rest => ⟨fun h => decode_of_numTags_le_tagOf h rest, fun _ => decode_of_length_lt, fun htag hlen => ?_⟩
  obtain ⟨i, hbytes, hi⟩ := exists_encode_eq htag hlen
  exact ⟨i, by rw [hbytes, decode_encode], hi⟩

theorem eq_encode_of_decode {bs rest : List Byte} {i : Instr} (h : decode bs = .ok i rest) :
    bs = encode i ++ rest := by
  match bs with
  | [] => cases h
  | b :: r =>
    obtain hundef | htag := (Nat.lt_or_ge (tagOf b) numTags).symm
    · rw [decode_of_numTags_le_tagOf hundef] at h
      cases h
    obtain hcut | hlen := Nat.lt_or_ge r.length (operandBytes (tagOf b))
    · rw [decode_of_length_lt hcut] at h
      cases h
    obtain ⟨j, hbytes, -⟩ := exists_encode_eq htag hlen
    rw [hbytes, decode_encode] at h
    cases h
    exact hbytes

/-- Settles O2: what decodes is no undefined tag and not cut off, so it is an encoding. -/
theorem decodedBytesAreTheEncoding : Obligations.DecodedBytesAreTheEncoding := fun _ _ _ => eq_encode_of_decode

/-- Settles O4: the words are literals, and the decoder computes. -/
theorem wordsOfTheEncodingTablesDecode : Obligations.WordsOfTheEncodingTablesDecode := by
  unfold Obligations.WordsOfTheEncodingTablesDecode
  decide

/-- Bytes behind those that decode are left over. -/
theorem decode_append {bs rest : List Byte} {i : Instr} (h : decode bs = .ok i rest) (more : List Byte) :
    decode (bs ++ more) = .ok i (rest ++ more) := by
  rw [eq_encode_of_decode h, List.append_assoc, decode_encode]

end Sys2Proof

/-! The step executes what the decoder reads at `A.PC`, and a table word placed there is what it reads
(40_decode_dispatch.md R82, R83; log 38). -/

namespace Sys2Proof.Machine

variable {s : State}

theorem step_of_decode {i : Instr} {rest : List Byte} (hr : s.status = .running) (hpc : s.act.pc < s.len)
    (h : decode (s.im.drop s.act.pc) = .ok i rest) : step s = exec i s := by
  rw [step_eq_instructionStep hr (List.getElem?_eq_getElem hpc), instructionStep_of_decode h]

/-- Settles O5: the loop test passes, and the fetch gives the decoded instruction. -/
theorem stepRunsDecodedInstruction : Obligations.StepRunsDecodedInstruction := fun _ _ _ => step_of_decode

/-! ## Placing bytes in the stream -/

/-- What stands before the placed bytes reaches exactly to their position. -/
theorem length_take_append_replicate (im : List Byte) (p : Nat) :
    (im.take p ++ List.replicate (p - im.length) 0).length = p := by
  rw [List.length_append, List.length_take, List.length_replicate]
  omega

theorem placeAt_drop (im : List Byte) (p : Nat) (bytes : List Byte) :
    (placeAt im p bytes).drop p = bytes ++ im.drop (p + bytes.length) := by
  rw [placeAt, List.append_assoc _ bytes, List.drop_left' (length_take_append_replicate im p)]

theorem placeAt_take (im : List Byte) (p : Nat) (bytes : List Byte) :
    (placeAt im p bytes).take p = im.take p ++ List.replicate (p - im.length) 0 := by
  rw [placeAt, List.append_assoc _ bytes, List.take_left' (length_take_append_replicate im p)]

theorem decode_of_decodeTableWord {n w : Nat} {i : Instr} (h : decodeTableWord n w = some i) :
    ∃ rest, decode (tableBytes n w) = .ok i rest := by
  unfold decodeTableWord at h
  split at h <;> cases h
  exact ⟨_, ‹_›⟩

/-- Settles O6: the placed word's bytes begin at `A.PC`, and what follows them is left over. -/
theorem placedInstructionRunsNext : Obligations.PlacedInstructionRunsNext := by
  refine fun s n w i h => ⟨?_, rfl, placeAt_take _ _ _⟩
  obtain ⟨rest, hdec⟩ := decode_of_decodeTableWord h
  have hdrop : (s.withFetchWord n w).im.drop s.act.pc =
      tableBytes n w ++ s.im.drop (s.act.pc + (tableBytes n w).length) :=
    placeAt_drop _ _ _
  have hlt : s.act.pc < (s.withFetchWord n w).len := by
    refine Nat.lt_of_not_le fun hend => ?_
    rw [List.drop_eq_nil_iff.mpr hend] at hdrop
    simp [tableBytes] at hdrop
  exact step_of_decode rfl hlt (hdrop ▸ decode_append hdec _)

end Sys2Proof.Machine

/-! What a step leaves unchanged in every state, and the one thing it does to the frame store, the stack of activations
and `PC`. The rules about frames, activations and the progress of a run all rest on it (10_state.md sections 2 and 3,
40_decode_dispatch.md sections 4 and 5). -/

namespace Sys2Proof.Machine

variable {s t : State}

/-- A register write touches the words of the running activation only. -/
theorem regWrite_eq {id : Byte} {v : Word} (h : regWrite id v s = .ok t) :
    ∃ g staging ret, t = { s with act := { s.act with g := g, staging := staging, ret := ret } } := by
  obtain ⟨_, -, rfl⟩ | ⟨_, -, rfl⟩ | ⟨-, rfl⟩ := regWrite_ok h <;> exact ⟨_, _, _, rfl⟩

/-- Popping a frame touches `CUR` and `PC` only. -/
theorem popFrame_eq (f : Frame) (s : State) :
    ∃ cur pc, popFrame f s = { s with act := { s.act with cur := cur, pc := pc } } := by
  unfold popFrame
  split <;> exact ⟨_, _, rfl⟩

theorem popFrame_of_root {f : Frame} (hp : f.parent = none) : popFrame f s = s.setPc (s.act.pc + 1) := by
  simp [popFrame, hp]

theorem popFrame_of_scope {f : Frame} {p : Nat} (hp : f.parent = some p) (hr : f.resume = none) :
    popFrame f s = (s.setCur p).setPc (s.act.pc + 1) := by
  simp [popFrame, hp, hr]

theorem popFrame_of_call {f : Frame} {p r : Nat} (hp : f.parent = some p) (hr : f.resume = some r) :
    popFrame f s = (s.setCur p).setPc (r + s.cfg.abortSkew) := by
  simp [popFrame, hp, hr]

/-! ## The parameters, the stream and the memory -/

/-- No instruction changes what the launch has fixed, or stores to memory. -/
theorem Effect.constants {i : Instr} (h : Effect s i t) :
    t.cfg = s.cfg ∧ t.im = s.im ∧ t.builtins = s.builtins ∧ t.mem = s.mem := by
  cases h with
  | badRead | badWrite | badTarget | advanced | skipped | pushed | called => exact ⟨rfl, rfl, rfl, rfl⟩
  | copied _ _ _ _ _ _ _ hu =>
    obtain ⟨_, _, _, rfl⟩ := regWrite_eq hu
    exact ⟨rfl, rfl, rfl, rfl⟩
  | popped _ f =>
    obtain ⟨_, _, he⟩ := popFrame_eq f s
    rw [he]
    exact ⟨rfl, rfl, rfl, rfl⟩

theorem activationEnd_constants (h : activationEnd s = .next t) :
    t.cfg = s.cfg ∧ t.im = s.im ∧ t.builtins = s.builtins ∧ t.mem = s.mem := by
  obtain ⟨-, rfl⟩ | ⟨c, cs, dst, -, -, ⟨u, hu, rfl⟩ | ⟨-, rfl⟩⟩ := activationEnd_next h
  · exact ⟨rfl, rfl, rfl, rfl⟩
  · obtain ⟨_, _, _, rfl⟩ := regWrite_eq hu
    exact ⟨rfl, rfl, rfl, rfl⟩
  · exact ⟨rfl, rfl, rfl, rfl⟩

theorem step_constants (h : step s = .next t) :
    t.cfg = s.cfg ∧ t.im = s.im ∧ t.builtins = s.builtins ∧ t.mem = s.mem := by
  obtain ⟨-, ⟨-, ⟨_, -, rfl⟩ | ⟨_, _, -, he⟩⟩ | ⟨-, hend⟩⟩ := step_next h
  · exact ⟨rfl, rfl, rfl, rfl⟩
  · exact (exec_next he).constants
  · exact activationEnd_constants hend

/-- Settles O33: no instruction and no end of an activation writes them. -/
theorem streamAndParametersAreConstant : Obligations.StreamAndParametersAreConstant := by
  intro s t h
  obtain ⟨hcfg, him, -, -⟩ := step_constants h
  exact ⟨him, hcfg⟩

/-! ## The instruction at `PC` -/

/-- The byte at `A.PC` has the tag of the decoded instruction. -/
theorem tagOf_of_decode {i : Instr} {rest : List Byte} (h : decode (s.im.drop s.act.pc) = .ok i rest) :
    s.im[s.act.pc]?.map tagOf = some i.tag := by
  have hhead : s.im[s.act.pc]? = some (opcodeByte i.tag i.imm) := by
    rw [← List.head?_drop, eq_encode_of_decode h]
    rfl
  rw [hhead, Option.map_some, tagOf_opcodeByte i.imm (i.tag_lt.trans (by decide))]

theorem nextInstr_of_decode {i : Instr} {rest : List Byte} (hr : s.status = .running) (hpc : s.act.pc < s.len)
    (h : decode (s.im.drop s.act.pc) = .ok i rest) : nextInstr s = some i := by
  simp [nextInstr, hr, insideStream, hpc, fetch_of_decode h]

/-- The next instruction of a step is an `Abort` that takes a resume address when the current frame has one. -/
theorem takesResume_of_nextInstr {imm : Bool} {f : Frame} (h : nextInstr s = some (.abort imm))
    (hf : s.frame? s.act.cur = some f) : takesResume s = f.resume.isSome := by
  simp [takesResume, h, hf]

/-- Only on a frame with a resume address does a step take one. -/
theorem exists_frame_of_takesResume (h : takesResume s = true) :
    ∃ f, s.frame? s.act.cur = some f ∧ f.resume.isSome = true := by
  unfold takesResume at h
  split at h
  · exact (Option.any_eq_true _ _).mp h
  · cases h

/-! ## The moves of a step -/

/-- What a step does to the frame store, the stack of activations, `BASE`, `CUR` and `PC`. -/
inductive Move (s t : State) : Prop where
  /-- Frames, activations and `CUR` stay; `PC` moves forward in the stream, or the run ends. -/
  | stay (hframes : t.frames = s.frames) (hcallers : t.callers = s.callers) (hcur : t.act.cur = s.act.cur)
      (hbase : t.act.base = s.act.base)
      (hpc : (t.status ≠ .running ∧ t.act.pc = s.act.pc) ∨ (s.act.pc < t.act.pc ∧ t.act.pc ≤ s.len))
  /-- An `Abort` re-enters the parent of the current frame. -/
  | pop (f : Frame) (p pc : Nat) (hf : s.frame? s.act.cur = some f) (hp : f.parent = some p)
      (ht : t = { s with act := { s.act with cur := p, pc := pc } })
      (hpc : (s.act.pc < pc ∧ pc ≤ s.len) ∨
        (takesResume s = true ∧ ∃ r, f.resume = some r ∧ pc = r + s.cfg.abortSkew))
  /-- A `Scope` enters a new frame. -/
  | scope (hpc : s.act.pc < s.len) (hcap : atLimit s.cfg.frameCap s.liveFrames = false) (ht : t = afterScope s)
  /-- A `Call` starts a callee. -/
  | call (target : Nat) (hcall : callAt s.im s.act.pc = true) (htarget : targetValid s target = true)
      (hcap : atLimit s.cfg.frameCap s.liveFrames = false)
      (hdepth : atLimit s.cfg.maxDepth s.activations.length = false) (ht : t = afterCall target s)
  /-- The end of a callee goes back to its caller. -/
  | ret (c : Activation) (hc : s.callers = c :: t.callers) (hend : s.len ≤ s.act.pc) (hframes : t.frames = s.frames)
      (hcur : t.act.cur = c.cur) (hbase : t.act.base = c.base) (hpc : t.act.pc = c.pc ∨ t.act.pc = c.pc + 5)

theorem move_raise (d : Diag) (s : State) : Move s (raise d s) :=
  .stay rfl rfl rfl rfl (.inl ⟨by simp, rfl⟩)

theorem move_popFrame {imm : Bool} {f : Frame} (hpc : s.act.pc < s.len) (hi : nextInstr s = some (.abort imm))
    (hf : s.frame? s.act.cur = some f) : Move s (popFrame f s) := by
  have hnext : s.act.pc < s.act.pc + 1 ∧ s.act.pc + 1 ≤ s.len := ⟨Nat.lt_succ_self _, hpc⟩
  have hresume := takesResume_of_nextInstr hi hf
  match hp : f.parent, hr : f.resume with
  | none, _ =>
    rw [popFrame_of_root hp]
    exact .stay rfl rfl rfl rfl (.inr hnext)
  | some p, none => exact .pop f p _ hf hp (popFrame_of_scope hp hr) (.inl hnext)
  | some p, some r =>
    exact .pop f p _ hf hp (popFrame_of_call hp hr) (.inr ⟨by simp [hresume, hr], r, hr, rfl⟩)

theorem Effect.move {i : Instr} {rest : List Byte} (h : Effect s i t) (hr : s.status = .running)
    (hpc : s.act.pc < s.len) (hdec : decode (s.im.drop s.act.pc) = .ok i rest) : Move s t := by
  cases h with
  | badRead | badWrite | badTarget => exact move_raise _ s
  | advanced => exact .stay rfl rfl rfl rfl (.inr ⟨Nat.lt_succ_self _, hpc⟩)
  | skipped _ _ _ _ _ hlen => exact .stay rfl rfl rfl rfl (.inr ⟨by simp, hlen⟩)
  | copied _ _ _ _ _ hlen _ hu =>
    obtain ⟨_, _, _, rfl⟩ := regWrite_eq hu
    exact .stay rfl rfl rfl rfl (.inr ⟨by simp, hlen⟩)
  | pushed _ hcap => exact .scope hpc hcap rfl
  | popped _ f hf => exact move_popFrame hpc (nextInstr_of_decode hr hpc hdec) hf
  | called _ _ _ _ _ hlen _ _ hv hcap hd =>
    exact .call _ (callAt_iff.mpr ⟨hlen, tagOf_of_decode hdec⟩) hv hcap hd rfl

theorem move_of_activationEnd (hend : s.len ≤ s.act.pc) (h : activationEnd s = .next t) : Move s t := by
  obtain ⟨-, rfl⟩ | ⟨c, cs, dst, hc, -, ⟨u, hu, rfl⟩ | ⟨-, rfl⟩⟩ := activationEnd_next h
  · exact .stay rfl rfl rfl rfl (.inl ⟨by simp, rfl⟩)
  · obtain ⟨_, _, _, rfl⟩ := regWrite_eq hu
    exact .ret c hc hend rfl rfl rfl (.inr rfl)
  · exact .ret c hc hend rfl rfl rfl (.inl rfl)

/-- Every step makes one of the moves. -/
theorem step_move (h : step s = .next t) : Move s t := by
  obtain ⟨hr, ⟨hpc, ⟨_, -, rfl⟩ | ⟨_, _, hdec, he⟩⟩ | ⟨hend, he⟩⟩ := step_next h
  · exact move_raise _ s
  · exact (exec_next he).move hr hpc hdec
  · exact move_of_activationEnd hend he

/-! ## The stack of activations -/

/-- A valid target is a byte of the stream with `Scope`'s tag (42_call.md R113). -/
theorem targetValid_iff {target : Nat} : targetValid s target = true ↔ s.im[target]?.map tagOf = some 1 := by
  unfold targetValid
  cases s.im[target]? <;> simp

/-- Settles O34: of the moves, the call pushes, the return pops, and the others leave the stack alone. -/
theorem activationsArePushedAndPoppedOnly : Obligations.ActivationsArePushedAndPoppedOnly := by
  intro s t h
  cases step_move h with
  | stay _ hcallers _ hbase => exact .inl ⟨hcallers, hbase⟩
  | pop _ _ _ _ _ ht =>
    subst ht
    exact .inl ⟨rfl, rfl⟩
  | scope _ _ ht =>
    subst ht
    exact .inl ⟨rfl, rfl⟩
  | call target hcall htarget _ _ ht =>
    subst ht
    obtain ⟨hlen, htag⟩ := callAt_iff.mp hcall
    exact .inr (.inl ⟨rfl, by rw [State.len]; omega, htag, rfl, targetValid_iff.mp htarget⟩)
  | ret c hc hend _ hcur hbase => exact .inr (.inr ⟨c, hc, hend, hbase, hcur⟩)

/-- Settles O47: only the call makes the stack longer, and it asks for room. -/
theorem depthLimitIsKept : Obligations.DepthLimitIsKept := by
  intro s t n hn hle h
  cases step_move h with
  | stay _ hcallers => simpa [State.activations, hcallers] using hle
  | pop _ _ _ _ _ ht =>
    subst ht
    exact hle
  | scope _ _ ht =>
    subst ht
    exact hle
  | call _ _ _ _ hdepth ht =>
    subst ht
    have hroom : s.activations.length < n := by simpa [hn] using hdepth
    exact hroom
  | ret c hc =>
    simp only [State.activations, List.length_cons, hc] at hle ⊢
    omega

end Sys2Proof.Machine

/-! The frame store under the moves of a step: what is live, how many call-created frames an activation stands on, and
the invariant of reached states (10_state.md section 3, 40_decode_dispatch.md sections 4 and 5). -/

namespace Sys2Proof.Machine

variable {s t : State} {fs : List Frame}

/-! ## Chains of links -/

/-- The chain of a frame without a parent is the frame. -/
theorem frameChain_root {r : Nat} {f : Frame} (hf : fs[r]? = some f) (hp : f.parent = none) :
    frameChain fs r = [r] := by
  simp [frameChain, chainFrom, hf, hp]

/-- Settles O44: a frame without a parent is the root frame, and a parent is older, so the links end there. -/
theorem rootFrameIsReachable : Obligations.RootFrameIsReachable := by
  rintro s r ⟨-, -, -, hframes, -⟩
  induction r using Nat.strong_induction_on with
  | _ r ih =>
    intro hr
    have hf : s.frames[r]? = some s.frames[r] := List.getElem?_eq_getElem hr
    have hok := s.framesOk_at hframes hf
    match hp : s.frames[r].parent with
    | none => rw [frameChain_root hf hp, (frameOk_root hok hp).1, List.getLast?_singleton]
    | some p =>
      have hlt : p < r := frameOk_parent_lt hok hp
      rw [frameChain_parent (s.framesOk_links hframes) hf hp, List.getLast?_cons, ih p hlt (hlt.trans hr),
        Option.getD_some]

/-! ## Live frames -/

theorem State.live_iff {r : Nat} : s.live r = true ↔ ∃ a ∈ s.activations, r ∈ frameChain s.frames a.cur := by
  simp [State.live]

/-- The chain of every activation of `t` is made of the new position of the store and a chain of `s`. -/
def ChainsWithin (s t : State) : Prop :=
  ∀ a ∈ t.activations, ∃ b ∈ s.activations, frameChain t.frames a.cur ⊆ s.frames.length :: frameChain s.frames b.cur

/-- So an old frame is live only where it was live. -/
theorem ChainsWithin.live {r : Nat} (h : ChainsWithin s t) (hr : r < s.frames.length) (hlive : t.live r = true) :
    s.live r = true := by
  obtain ⟨a, ha, hra⟩ := State.live_iff.mp hlive
  obtain ⟨b, hb, hsub⟩ := h a ha
  obtain rfl | hrb := List.mem_cons.mp (hsub hra)
  · exact absurd hr (Nat.lt_irrefl _)
  · exact State.live_iff.mpr ⟨b, hb, hrb⟩

/-- The live frames among the old ones do not become more. -/
theorem ChainsWithin.countP_le (h : ChainsWithin s t) :
    (List.range s.frames.length).countP t.live ≤ s.liveFrames :=
  List.countP_mono_left fun _ hr => h.live (List.mem_range.mp hr)

/-- Every move keeps the chains within the old ones: it goes to an older frame, or makes one frame above a current
one. -/
theorem Move.chainsWithin (hs : s.Inv) (h : Move s t) : ChainsWithin s t := by
  obtain ⟨-, -, -, hframes, hcurs, -⟩ := hs
  have hlinks := s.framesOk_links hframes
  have hsame : ∀ a ∈ s.activations,
      ∃ b ∈ s.activations, frameChain s.frames a.cur ⊆ s.frames.length :: frameChain s.frames b.cur :=
    fun a ha => ⟨a, ha, List.subset_cons_self _ _⟩
  have hold : ∀ (g : Frame), ∀ a ∈ s.activations,
      ∃ b ∈ s.activations, frameChain (s.frames ++ [g]) a.cur ⊆ s.frames.length :: frameChain s.frames b.cur :=
    fun g a ha => ⟨a, ha, frameChain_append hlinks g (hcurs a ha) ▸ List.subset_cons_self _ _⟩
  have hnew : ∀ (g : Frame), g.parent = some s.act.cur →
      ∃ b ∈ s.activations,
        frameChain (s.frames ++ [g]) s.frames.length ⊆ s.frames.length :: frameChain s.frames b.cur :=
    fun g hg => ⟨s.act, List.mem_cons_self,
      frameChain_new hlinks hg (hcurs _ List.mem_cons_self) ▸ List.Subset.refl _⟩
  have hcallers : ∀ a ∈ s.callers, a ∈ s.activations := fun a => List.mem_cons_of_mem _
  cases h with
  | stay hfr hcs hcur =>
    refine List.forall_mem_cons.mpr ⟨?_, fun a ha => ?_⟩
    · rw [hfr, hcur]
      exact hsame _ List.mem_cons_self
    · rw [hfr]
      exact hsame a (hcallers a (hcs ▸ ha))
  | pop f p pc hf hp ht =>
    subst ht
    refine List.forall_mem_cons.mpr ⟨⟨s.act, List.mem_cons_self, ?_⟩, fun a ha => hsame a (hcallers a ha)⟩
    rw [frameChain_parent hlinks hf hp]
    exact List.subset_cons_of_subset _ (List.subset_cons_self _ _)
  | scope _ _ ht =>
    subst ht
    exact List.forall_mem_cons.mpr ⟨hnew _ rfl, fun a ha => hold _ a (hcallers a ha)⟩
  | call _ _ _ _ _ ht =>
    subst ht
    exact List.forall_mem_cons.mpr ⟨hnew _ rfl, hold _⟩
  | ret c hc _ hfr hcur =>
    have hbelow : ∀ a ∈ c :: t.callers, a ∈ s.activations := hc ▸ hcallers
    refine List.forall_mem_cons.mpr ⟨?_, fun a ha => ?_⟩
    · rw [hfr, hcur]
      exact hsame c (hbelow c List.mem_cons_self)
    · rw [hfr]
      exact hsame a (hbelow a (List.mem_cons_of_mem _ ha))

/-- A move makes no frame, or one for which there is room. -/
theorem Move.frames_length (h : Move s t) :
    t.frames.length = s.frames.length ∨
      (t.frames.length = s.frames.length + 1 ∧ atLimit s.cfg.frameCap s.liveFrames = false) := by
  cases h with
  | stay hfr => exact .inl (by rw [hfr])
  | ret _ _ _ hfr => exact .inl (by rw [hfr])
  | pop _ _ _ _ _ ht =>
    subst ht
    exact .inl rfl
  | scope _ hcap ht =>
    subst ht
    exact .inr ⟨by simp, hcap⟩
  | call _ _ _ hcap _ ht =>
    subst ht
    exact .inr ⟨by simp, hcap⟩

/-- Settles O48: no old frame comes to life, and the one frame that is made was below the cap. -/
theorem liveFrameLimitIsKept : Obligations.LiveFrameLimitIsKept := by
  intro s t n hs hn hle h
  have hm := step_move h
  have hcount := (hm.chainsWithin hs).countP_le
  obtain hlen | ⟨hlen, hroom⟩ := hm.frames_length
  · rw [State.liveFrames, hlen]
    exact hcount.trans hle
  · have hlt : s.liveFrames < n := by simpa [hn] using hroom
    have hone : [s.frames.length].countP t.live ≤ 1 := List.countP_le_length
    rw [State.liveFrames, hlen, List.range_succ, List.countP_append]
    omega

/-! ## Call-created frames -/

/-- Making a frame changes no old count. -/
theorem callFrames_append (h : OlderLinks fs) (g : Frame) {r : Nat} (hr : r < fs.length) :
    callFrames (fs ++ [g]) r = callFrames fs r := by
  rw [callFrames, callFrames, frameChain_append h g hr]
  refine List.countP_congr fun q hq => ?_
  rw [List.getElem?_append_left (chainFrom_lt h _ r hr q hq)]

/-- A frame with a parent counts itself, if it is call-created, and what its parent counts. -/
theorem callFrames_parent (h : OlderLinks fs) {r p : Nat} {f : Frame} (hf : fs[r]? = some f) (hp : f.parent = some p) :
    callFrames fs r = callFrames fs p + if f.resume.isSome then 1 else 0 := by
  rw [callFrames, frameChain_parent h hf hp, List.countP_cons, hf, Option.any_some]
  rfl

/-- So does a new frame. -/
theorem callFrames_new (h : OlderLinks fs) {g : Frame} {p : Nat} (hg : g.parent = some p) (hp : p < fs.length) :
    callFrames (fs ++ [g]) fs.length = callFrames fs p + if g.resume.isSome then 1 else 0 := by
  rw [← callFrames_append h g hp, callFrames, frameChain_new h hg hp, List.countP_cons, List.getElem?_concat_length,
    Option.any_some, callFrames, frameChain_append h g hp]

theorem callBudget_append (h : OlderLinks fs) (g : Frame) {as : List Activation}
    (hcur : ∀ a ∈ as, a.cur < fs.length) (hb : callBudget fs as) : callBudget (fs ++ [g]) as := by
  induction as with
  | nil => trivial
  | cons a below ih =>
    obtain ⟨ha, hbelow⟩ := hb
    rw [List.forall_mem_cons] at hcur
    exact ⟨(callFrames_append h g hcur.1).trans_le ha, ih hcur.2 hbelow⟩

/-- Settles O42: a `Scope` adds no call-created frame, a `Call` adds one and makes the stack one deeper, and an `Abort`
or a return goes back to a chain or an activation that was within its budget. -/
theorem stepKeepsResumeBudget : Obligations.StepKeepsResumeBudget := by
  rintro s t ⟨-, -, -, hframes, hcurs, -⟩ hb h
  have hlinks := s.framesOk_links hframes
  have hcur : s.act.cur < s.frames.length := hcurs _ List.mem_cons_self
  obtain ⟨hact, hbelow⟩ := id hb
  cases step_move h with
  | stay hfr hcs hc => simpa [State.activations, callBudget, hfr, hcs, hc] using hb
  | pop f p pc hf hp ht =>
    subst ht
    have hparent := callFrames_parent hlinks hf hp
    exact ⟨(Nat.le_add_right _ _).trans (hparent ▸ hact), hbelow⟩
  | scope _ _ ht =>
    subst ht
    exact ⟨(callFrames_new hlinks rfl hcur).trans_le hact,
      callBudget_append hlinks _ (fun a ha => hcurs a (List.mem_cons_of_mem _ ha)) hbelow⟩
  | call _ _ _ _ _ ht =>
    subst ht
    exact ⟨(callFrames_new hlinks rfl hcur).trans_le (Nat.succ_le_succ hact), callBudget_append hlinks _ hcurs hb⟩
  | ret c hc _ hfr hcur =>
    rw [hc] at hbelow
    simpa [State.activations, callBudget, hfr, hcur] using hbelow

/-- Settles O43: a resume address stands in a frame with a parent, which counts as a call-created one, and at depth 0
there is none. -/
theorem rootNeverTakesResume : Obligations.RootNeverTakesResume := by
  rintro s ⟨-, -, -, hframes, -⟩ ⟨hroot, -⟩ hcallers
  refine Bool.eq_false_iff.mpr fun htakes => ?_
  obtain ⟨f, hf, hresume⟩ := exists_frame_of_takesResume htakes
  match hp : f.parent with
  | none => simp [(frameOk_root (s.framesOk_at hframes hf) hp).2] at hresume
  | some p =>
    rw [callFrames_parent (s.framesOk_links hframes) hf hp, hresume, hcallers] at hroot
    exact absurd hroot (Nat.not_succ_le_zero _)

/-! ## The invariant of reached states -/

/-- A store stays in order when a frame that fits its position is made. -/
theorem framesOk_append {g : Frame} (hs : s.framesOk) (hg : frameOk s.im s.frames.length g = true) (him : t.im = s.im)
    (ht : t.frames = s.frames ++ [g]) : t.framesOk := by
  refine ⟨by simp [ht], fun r hr => ?_⟩
  rw [ht, List.length_append, List.length_singleton, Nat.lt_succ_iff_lt_or_eq] at hr
  rw [him, ht]
  obtain hlt | rfl := hr
  · rw [List.getElem?_append_left hlt]
    exact hs.2 r hlt
  · rwa [List.getElem?_concat_length, Option.all_some]

/-- The frame that a `Scope` makes is a scope-created one. -/
theorem frameOk_scope {im : List Byte} {r p : Nat} {args : Vector Word 8} (hp : p < r) :
    frameOk im r ⟨some p, none, args⟩ = true := by
  simp [frameOk, hp]

/-- The frame that a complete `Call` makes is a call-created one. -/
theorem frameOk_call {im : List Byte} {r p pc : Nat} {args : Vector Word 8} (hp : p < r) (hc : callAt im pc = true) :
    frameOk im r ⟨some p, some (pc + 5), args⟩ = true := by
  simp [frameOk, hp, hc]

theorem Move.framesOk (hs : s.Inv) (him : t.im = s.im) (h : Move s t) : t.framesOk := by
  obtain ⟨-, -, -, hframes, hcurs, -⟩ := hs
  have hcur : s.act.cur < s.frames.length := hcurs _ List.mem_cons_self
  cases h with
  | stay hfr => rwa [State.framesOk, hfr, him]
  | ret _ _ _ hfr => rwa [State.framesOk, hfr, him]
  | pop _ _ _ _ _ ht =>
    subst ht
    exact hframes
  | scope _ _ ht =>
    subst ht
    exact framesOk_append hframes (frameOk_scope hcur) rfl rfl
  | call _ hcall _ _ _ ht =>
    subst ht
    exact framesOk_append hframes (frameOk_call hcur hcall) rfl rfl

/-- Every `CUR` still names a frame: an older one, the one it named, or the new one. -/
theorem Move.curs (hs : s.Inv) (h : Move s t) : ∀ a ∈ t.activations, a.cur < t.frames.length := by
  obtain ⟨-, -, -, hframes, hcurs, -⟩ := hs
  obtain ⟨hcur, hbelow⟩ := List.forall_mem_cons.mp hcurs
  cases h with
  | stay hfr hcs hc =>
    rw [hfr]
    exact List.forall_mem_cons.mpr ⟨hc ▸ hcur, hcs ▸ hbelow⟩
  | pop f p pc hf hp ht =>
    subst ht
    exact List.forall_mem_cons.mpr ⟨(s.framesOk_links hframes _ f p hf hp).trans hcur, hbelow⟩
  | scope _ _ ht =>
    subst ht
    rw [afterScope_frames, List.length_append, List.length_singleton]
    exact List.forall_mem_cons.mpr ⟨Nat.lt_succ_self _, fun a ha => (hbelow a ha).trans (Nat.lt_succ_self _)⟩
  | call _ _ _ _ _ ht =>
    subst ht
    rw [afterCall_frames, List.length_append, List.length_singleton]
    exact List.forall_mem_cons.mpr ⟨Nat.lt_succ_self _, fun a ha => (hcurs a ha).trans (Nat.lt_succ_self _)⟩
  | ret c hc _ hfr hcur =>
    obtain ⟨hcc, hrest⟩ := List.forall_mem_cons.mp (hc ▸ hbelow)
    rw [hfr]
    exact List.forall_mem_cons.mpr ⟨hcur ▸ hcc, hrest⟩

/-- `PC` stays within the bound of R89: a resume address and a `Call`'s end lie in the stream or just behind it. -/
theorem Move.pc_le (hs : s.Inv) (h : Move s t) : t.act.pc ≤ s.len + s.cfg.abortSkew := by
  obtain ⟨-, -, -, hframes, -, hpc, hcalls⟩ := hs
  have hin {n : Nat} (hn : n ≤ s.len) : n ≤ s.len + s.cfg.abortSkew := hn.trans (Nat.le_add_right _ _)
  cases h with
  | stay _ _ _ _ hmove =>
    obtain ⟨-, heq⟩ | ⟨-, hle⟩ := hmove
    · exact heq ▸ hpc
    · exact hin hle
  | pop f _ pc hf _ ht hmove =>
    subst ht
    obtain ⟨-, hle⟩ | ⟨-, r, hr, rfl⟩ := hmove
    · exact hin hle
    · exact Nat.add_le_add_right (frameOk_resume_le (s.framesOk_at hframes hf) hr) _
  | scope hlt _ ht =>
    subst ht
    exact hin hlt
  | call target _ htarget _ _ ht =>
    subst ht
    obtain ⟨b, hb, -⟩ := Option.map_eq_some_iff.mp (targetValid_iff.mp htarget)
    exact hin (List.getElem?_eq_some_iff.mp hb).1.le
  | ret c hc _ _ _ _ hmove =>
    have hlt : c.pc + 4 < s.len := (callAt_iff.mp (hcalls c (hc ▸ List.mem_cons_self))).1
    refine hin ?_
    obtain heq | heq := hmove <;> omega

/-- Every suspended activation waits at a complete `Call`: a new one at the `Call` that suspended it. -/
theorem Move.callers_atCall (hs : s.Inv) (h : Move s t) : ∀ c ∈ t.callers, callAt s.im c.pc = true := by
  obtain ⟨-, -, -, -, -, -, hcalls⟩ := hs
  cases h with
  | stay _ hcs => exact hcs ▸ hcalls
  | pop _ _ _ _ _ ht =>
    subst ht
    exact hcalls
  | scope _ _ ht =>
    subst ht
    exact hcalls
  | call _ hcall _ _ _ ht =>
    subst ht
    exact List.forall_mem_cons.mpr ⟨hcall, hcalls⟩
  | ret c hc => exact fun a ha => hcalls a (hc ▸ List.mem_cons_of_mem _ ha)

/-- Settles O40: parameters, stream and memory are constant, and each move keeps the frames, the `CUR`s, the bound on
`PC` and the suspended activations in order. -/
theorem stepKeepsInvariant : Obligations.StepKeepsInvariant := by
  intro s t hs h
  have hm := step_move h
  obtain ⟨hwf, hstream, hmem, -⟩ := id hs
  obtain ⟨hcfg, him, -, hmem'⟩ := step_constants h
  refine ⟨hcfg ▸ hwf, hcfg ▸ him ▸ hstream, hmem' ▸ hmem, hm.framesOk hs him, hm.curs hs, ?_, ?_⟩
  · rw [State.len, him, hcfg]
    exact hm.pc_le hs
  · simpa only [atCall, him] using hm.callers_atCall hs

/-- A state of the invariant has `PC` below 2 to the `PC_BITS`: the stream leaves two positions and the skew is at
most 1. -/
theorem State.Inv.pc_lt (hs : s.Inv) : s.act.pc < 2 ^ s.cfg.pcBits := by
  obtain ⟨hwf, hstream, -, -, -, hpc, -⟩ := hs
  have hskew : s.cfg.abortSkew ≤ 1 := by
    simp only [Config.wellFormed, Bool.and_eq_true, decide_eq_true_eq] at hwf
    obtain ⟨⟨⟨⟨⟨-, hskew⟩, -⟩, -⟩, -⟩, -⟩ := hwf
    exact hskew
  have hlen : s.len + 2 ≤ 2 ^ s.cfg.pcBits := of_decide_eq_true hstream
  omega

/-- Settles O41: the invariant holds before and after. -/
theorem pcNeverWraps : Obligations.PcNeverWraps := fun s t hs h => ⟨hs.pc_lt, (stepKeepsInvariant s t hs h).pc_lt⟩

/-- Settles O39: the reset state is a literal, and each part of the invariant computes on it. -/
theorem resetMeetsInvariant : Obligations.ResetMeetsInvariant := by
  unfold Obligations.ResetMeetsInvariant
  decide

end Sys2Proof.Machine

/-! How a run goes on and how it ends: `PC` moves forward, no step is refused, and a run without `Call`s ends
(40_decode_dispatch.md sections 4 and 5). -/

namespace Sys2Proof.Machine

variable {s t : State}

/-- Settles O49: of the moves that go on, only a return and a taken resume address do not move `PC` forward or start a
callee, and the premises exclude both. -/
theorem instructionsMoveForward : Obligations.InstructionsMoveForward := by
  intro s t hpc htakes h ht
  cases step_move h with
  | stay _ hcallers _ _ hmove =>
    obtain ⟨hstatus, -⟩ | ⟨hlt, -⟩ := hmove
    · exact absurd ht hstatus
    · exact .inl ⟨hcallers, hlt⟩
  | pop _ _ _ _ _ heq hmove =>
    subst heq
    obtain ⟨hlt, -⟩ | ⟨htrue, -⟩ := hmove
    · exact .inl ⟨rfl, hlt⟩
    · rw [htakes] at htrue
      cases htrue
  | scope _ _ heq =>
    subst heq
    exact .inl ⟨rfl, Nat.lt_succ_self _⟩
  | call _ _ _ _ _ heq =>
    subst heq
    exact .inr rfl
  | ret _ _ hend => exact absurd hpc (Nat.not_lt.mpr hend)

/-! ## No step is refused -/

theorem settle_ne_refused (r : Except Stop State) (q : Refusal) : settle s r ≠ .refused q := by
  rcases r with (_ | _ | _) | _ <;> exact nofun

/-- Every arm of the dispatch gives its instruction a meaning. -/
theorem exec_ne_refused (i : Instr) (s : State) (q : Refusal) : exec i s ≠ .refused q := by
  cases i with
  | call | scope | abort | copy => exact settle_ne_refused _ q
  | mset | mget | cmp | jump | tjmp | fjmp | add | sub | mul | div => exact nofun

theorem activationEnd_ne_refused (s : State) (q : Refusal) : activationEnd s ≠ .refused q := by
  unfold activationEnd
  split
  · exact nofun
  · split
    · exact nofun
    · exact settle_ne_refused _ q

theorem step_ne_refused (s : State) (q : Refusal) : step s ≠ .refused q := by
  by_cases hr : s.status = .running
  · simp only [step, hr]
    split
    · rw [instructionStep]
      split
      · exact exec_ne_refused _ s q
      · exact settle_ne_refused (.error _) q
    · exact activationEnd_ne_refused s q
  · rw [step_of_not_running hr]
    exact nofun

/-! ## Runs without calls -/

/-- The run from `s` faults or leaves RUNNING within `n` steps. -/
def StopsWithin (n : Nat) (s : State) : Prop :=
  ∃ k, k ≤ n ∧ ((∃ f, core.run k s = .fault f) ∨ ∃ t : State, core.run k s = .next t ∧ t.status ≠ .running)

theorem run_succ_of_next {M : Host.Core} {s t : M.State} (h : M.step s = .next t) (k : Nat) :
    M.run (k + 1) s = M.run k t := by
  rw [Host.Core.run, h]

theorem run_one_of_fault {M : Host.Core} {s : M.State} {f : M.Fault} (h : M.step s = .fault f) :
    M.run 1 s = .fault f := by
  rw [Host.Core.run, h]

theorem StopsWithin.of_not_running (n : Nat) (h : s.status ≠ .running) : StopsWithin n s :=
  ⟨0, Nat.zero_le n, .inr ⟨s, rfl, h⟩⟩

theorem StopsWithin.of_fault (n : Nat) {f : Fault} (h : step s = .fault f) : StopsWithin (n + 1) s :=
  ⟨1, Nat.le_add_left 1 n, .inl ⟨f, run_one_of_fault (M := core) h⟩⟩

theorem StopsWithin.of_step {n : Nat} (h : step s = .next t) (ht : StopsWithin n t) : StopsWithin (n + 1) s := by
  obtain ⟨k, hk, hrun⟩ := ht
  exact ⟨k + 1, Nat.succ_le_succ hk, run_succ_of_next (M := core) h k ▸ hrun⟩

/-- A running root in whose stream no byte has `Call`'s tag and in whose store no frame has a resume address. -/
structure CallFree (s : State) : Prop where
  running : s.status = .running
  root : s.callers = []
  stream : ∀ b ∈ s.im, tagOf b ≠ 0
  frames : ∀ f ∈ s.frames, f.resume = none

theorem CallFree.takesResume (hs : CallFree s) : takesResume s = false := by
  refine Bool.eq_false_iff.mpr fun htakes => ?_
  obtain ⟨f, hf, hresume⟩ := exists_frame_of_takesResume htakes
  rw [hs.frames f (List.mem_of_getElem? hf)] at hresume
  cases hresume

theorem CallFree.not_callAt (hs : CallFree s) : ¬ callAt s.im s.act.pc = true := by
  intro hcall
  obtain ⟨b, hb, htag⟩ := Option.map_eq_some_iff.mp (callAt_iff.mp hcall).2
  exact hs.stream b (List.mem_of_getElem? hb) htag

/-- No move of such a root adds an activation or a frame with a resume address. -/
theorem CallFree.of_step (hs : CallFree s) (h : step s = .next t) (ht : t.status = .running) : CallFree t := by
  obtain ⟨-, him, -, -⟩ := step_constants h
  have hstream : ∀ b ∈ t.im, tagOf b ≠ 0 := him ▸ hs.stream
  cases step_move h with
  | stay hframes hcallers => exact ⟨ht, hcallers ▸ hs.root, hstream, hframes ▸ hs.frames⟩
  | pop _ _ _ _ _ heq =>
    subst heq
    exact ⟨ht, hs.root, hstream, hs.frames⟩
  | scope _ _ heq =>
    subst heq
    exact ⟨ht, hs.root, hstream, List.forall_mem_append.mpr ⟨hs.frames, List.forall_mem_singleton.mpr rfl⟩⟩
  | call _ hcall => exact absurd hcall hs.not_callAt
  | ret c hc =>
    rw [hs.root] at hc
    cases hc

/-- Inside the stream such a root moves `PC` forward. -/
theorem CallFree.pc_lt (hs : CallFree s) (hpc : s.act.pc < s.len) (h : step s = .next t) (ht : t.status = .running) :
    s.act.pc < t.act.pc := by
  obtain ⟨-, hlt⟩ | hpush := instructionsMoveForward s t hpc hs.takesResume h ht
  · exact hlt
  · rw [(hs.of_step h ht).root] at hpush
    cases hpush

/-- The loop test fails at the end of the stream (40_decode_dispatch.md R81). -/
theorem step_eq_activationEnd (hr : s.status = .running) (hpc : s.len ≤ s.act.pc) : step s = activationEnd s := by
  simp [step, hr, insideStream, Nat.not_lt.mpr hpc]

/-- There a root ends the run. -/
theorem step_root_end (hr : s.status = .running) (hpc : s.len ≤ s.act.pc) (hroot : s.callers = []) :
    step s = .next (endRun s) := by
  rw [step_eq_activationEnd hr hpc, activationEnd, hroot]

/-- The distance to the end of the stream bounds the steps that are left. -/
theorem CallFree.stopsWithin (hs : CallFree s) : StopsWithin (s.len - s.act.pc + 1) s := by
  induction hn : s.len - s.act.pc using Nat.strong_induction_on generalizing s with
  | _ n ih =>
    subst hn
    obtain hpc | hpc := Nat.lt_or_ge s.act.pc s.len
    · match h : step s with
      | .fault f => exact .of_fault _ h
      | .refused q => exact absurd h (step_ne_refused s q)
      | .next t =>
        by_cases ht : t.status = .running
        · have hlt : s.act.pc < t.act.pc := hs.pc_lt hpc h ht
          have hlen : t.len = s.len := congrArg List.length (step_constants h).2.1
          have hless : t.len - t.act.pc < s.len - s.act.pc := by omega
          obtain ⟨k, hk, hrun⟩ := StopsWithin.of_step h (ih _ hless (hs.of_step h ht) rfl)
          exact ⟨k, by omega, hrun⟩
        · exact .of_step h (.of_not_running _ ht)
    · exact .of_step (step_root_end hs.running hpc hs.root) (.of_not_running _ (by simp))

/-- Settles O50: each step of such a root moves `PC` forward, and at the end of the stream the run ends. -/
theorem runWithoutCallsEnds : Obligations.RunWithoutCallsEnds := fun _ hr hroot hstream hframes =>
  CallFree.stopsWithin ⟨hr, hroot, hstream, hframes⟩

/-- Settles O26: the loop test fails, and there is no caller to return to. -/
theorem rootEndFinishesRun : Obligations.RootEndFinishesRun := fun _ => step_root_end

end Sys2Proof.Machine

/-! The record of how a run ends: `STATUS`, `DIAG` and `OUT` (60_exceptions.md section 3, 10_state.md section 5). -/

namespace Sys2Proof.Machine

variable {s t : State}

/-- Settles O9. -/
theorem noStepOutsideRunning : Obligations.NoStepOutsideRunning := fun _ => step_of_not_running

/-- Settles O38: an instruction keeps `STATUS` or raises, and so does the end of a callee; the end of the root makes it
DONE. -/
theorem runEndsOnlyByDoneOrError : Obligations.RunEndsOnlyByDoneOrError := by
  intro s t h
  obtain ⟨hr, ⟨-, ⟨_, -, rfl⟩ | ⟨i, _, -, he⟩⟩ | ⟨hpc, hend⟩⟩ := step_next h
  · exact ⟨hr, .inr (.inr ⟨rfl, _, rfl, rfl, rfl, rfl⟩)⟩
  · obtain hs | ⟨d, rfl⟩ := (exec_next he).status_eq_or_raise
    · exact ⟨hr, .inl (hs.trans hr)⟩
    · exact ⟨hr, .inr (.inr ⟨rfl, d, rfl, rfl, rfl, rfl⟩)⟩
  · obtain ⟨hroot, rfl⟩ | ⟨c, cs, dst, -, -, ⟨u, hu, rfl⟩ | ⟨-, rfl⟩⟩ := activationEnd_next hend
    · exact ⟨hr, .inr (.inl ⟨rfl, hroot, hpc, rfl, rfl⟩)⟩
    · exact ⟨hr, .inl ((regWrite_status hu).trans hr)⟩
    · exact ⟨hr, .inr (.inr ⟨rfl, _, rfl, rfl, rfl, rfl⟩)⟩

/-! ## The agreement of `DIAG` and `OUT` with `STATUS` -/

/-- While the core runs, the agreement says that no activation has a diagnostic. -/
theorem outcomeOk_iff_of_running (hr : s.status = .running) :
    s.outcomeOk ↔ ∀ a ∈ s.activations, a.diag = none := by
  rw [State.outcomeOk, hr, State.activations, List.forall_mem_cons, and_comm]

/-- A raise makes the record that ERROR asks for. -/
theorem outcomeOk_raise (d : Diag) (h : ∀ c ∈ s.callers, c.diag = none) : (raise d s).outcomeOk :=
  ⟨h, d, rfl, rfl, rfl, rfl⟩

/-- An instruction that does not raise gives no activation a diagnostic. -/
theorem Effect.raise_or_diags {i : Instr} (h : Effect s i t) (hs : ∀ a ∈ s.activations, a.diag = none) :
    (∃ d, t = raise d s) ∨ (t.status = s.status ∧ ∀ a ∈ t.activations, a.diag = none) := by
  obtain ⟨hact, hcallers⟩ := List.forall_mem_cons.mp hs
  cases h with
  | badRead | badWrite | badTarget => exact .inl ⟨_, rfl⟩
  | advanced | skipped | pushed => exact .inr ⟨rfl, List.forall_mem_cons.mpr ⟨hact, hcallers⟩⟩
  | copied _ _ _ _ _ _ _ hu =>
    obtain ⟨_, _, _, rfl⟩ := regWrite_eq hu
    exact .inr ⟨rfl, List.forall_mem_cons.mpr ⟨hact, hcallers⟩⟩
  | popped _ f =>
    obtain ⟨_, _, he⟩ := popFrame_eq f s
    rw [he]
    exact .inr ⟨rfl, List.forall_mem_cons.mpr ⟨hact, hcallers⟩⟩
  | called => exact .inr ⟨rfl, List.forall_mem_cons.mpr ⟨rfl, hs⟩⟩

/-- Settles O46: a step starts with no diagnostic anywhere, and only a raise makes one, with its record. -/
theorem stepKeepsOutcomeRecord : Obligations.StepKeepsOutcomeRecord := by
  intro s t hs h
  have hr : s.status = .running := (step_next h).1
  have hdiags := (outcomeOk_iff_of_running hr).mp hs
  obtain ⟨hact, hcallers⟩ := List.forall_mem_cons.mp hdiags
  obtain ⟨-, ⟨-, ⟨_, -, rfl⟩ | ⟨i, _, -, he⟩⟩ | ⟨-, hend⟩⟩ := step_next h
  · exact outcomeOk_raise _ hcallers
  · obtain ⟨d, rfl⟩ | ⟨hst, ht⟩ := (exec_next he).raise_or_diags hdiags
    · exact outcomeOk_raise d hcallers
    · exact (outcomeOk_iff_of_running (hst.trans hr)).mpr ht
  · obtain ⟨hroot, rfl⟩ | ⟨c, cs, dst, hc, -, hret⟩ := activationEnd_next hend
    · exact ⟨hcallers, hact, hroot, rfl, rfl⟩
    · obtain ⟨hcd, hrest⟩ := List.forall_mem_cons.mp (hc ▸ hcallers)
      obtain ⟨u, hu, rfl⟩ | ⟨-, rfl⟩ := hret
      · obtain ⟨_, _, _, rfl⟩ := regWrite_eq hu
        refine (outcomeOk_iff_of_running ?_).mpr (List.forall_mem_cons.mpr ⟨hcd, hrest⟩)
        exact hr
      · exact outcomeOk_raise _ hrest

/-- Settles O56: each of the three ends sets `STATUS`, and the report reads the fields valid for it. -/
theorem hostReadsOnlyValidFields : Obligations.HostReadsOnlyValidFields := by
  refine fun s d r => ⟨rfl, rfl, rfl, fun h => ?_⟩
  obtain h | h := h <;> simp [hostReport, h]

end Sys2Proof.Machine

/-! No step makes a word above 255: literals are bytes, and everything else is passed on (44_copy.md R146). -/

namespace Sys2Proof.Machine

variable {s t : State} {v : Word}

theorem bytesOnly_iff : s.bytesOnly ↔
    s.act.bytesOnly ∧ (∀ a ∈ s.callers, a.bytesOnly) ∧ ∀ f ∈ s.frames, ∀ w ∈ f.args.toList, w ≤ 255 := by
  rw [State.bytesOnly, State.activations, List.forall_mem_cons, and_assoc]

/-- Setting a word up to 255 keeps a vector of such words. -/
theorem forall_mem_set_le {n : Nat} {xs : Vector Word n} {i : Nat} (hi : i < n) (hxs : ∀ w ∈ xs.toList, w ≤ 255)
    (hv : v ≤ 255) : ∀ w ∈ (xs.set i v hi).toList, w ≤ 255 := by
  intro w hw
  rw [Vector.toList_set] at hw
  obtain hw | rfl := List.mem_or_eq_of_mem_set hw
  · exact hxs w hw
  · exact hv

theorem forall_mem_replicate_le (n : Nat) (hv : v ≤ 255) : ∀ w ∈ (Vector.replicate n v).toList, w ≤ 255 := by
  intro w hw
  rw [Vector.toList_replicate] at hw
  exact List.eq_of_mem_replicate hw ▸ hv

theorem bytesOnly_freshActivation {c : Config} (hc : c.resetWord ≤ 255) (base cur : Nat) :
    (freshActivation c base cur).bytesOnly :=
  ⟨forall_mem_replicate_le 32 hc, forall_mem_replicate_le 8 hc, (by decide : (0 : Word) ≤ 255)⟩

theorem bytesOnly_setPc (hs : s.bytesOnly) (pc : Nat) : (s.setPc pc).bytesOnly := by
  obtain ⟨hact, hrest⟩ := bytesOnly_iff.mp hs
  exact bytesOnly_iff.mpr ⟨hact, hrest⟩

theorem bytesOnly_raise (hs : s.bytesOnly) (d : Diag) : (raise d s).bytesOnly := by
  obtain ⟨hact, hrest⟩ := bytesOnly_iff.mp hs
  exact bytesOnly_iff.mpr ⟨hact, hrest⟩

theorem bytesOnly_regWrite {id : Byte} (hs : s.bytesOnly) (hv : v ≤ 255) (h : regWrite id v s = .ok t) :
    t.bytesOnly := by
  obtain ⟨⟨hg, hstaging, hret⟩, hcallers, hframes⟩ := bytesOnly_iff.mp hs
  obtain ⟨i, -, rfl⟩ | ⟨i, -, rfl⟩ | ⟨-, rfl⟩ := regWrite_ok h
  · exact bytesOnly_iff.mpr ⟨⟨forall_mem_set_le i.isLt hg hv, hstaging, hret⟩, hcallers, hframes⟩
  · exact bytesOnly_iff.mpr ⟨⟨hg, forall_mem_set_le i.isLt hstaging hv, hret⟩, hcallers, hframes⟩
  · exact bytesOnly_iff.mpr ⟨⟨hg, hstaging, hv⟩, hcallers, hframes⟩

theorem regRead_le {id : Byte} (hs : s.bytesOnly) (h : regRead id s = .ok v) : v ≤ 255 := by
  obtain ⟨⟨hg, -, -⟩, -, hframes⟩ := bytesOnly_iff.mp hs
  obtain ⟨hid, rfl⟩ | ⟨f, hid, hge, hf, rfl⟩ := regRead_ok h
  · exact hg _ (Vector.mem_toList_iff.mpr (Vector.getElem_mem hid))
  · exact hframes f (List.mem_of_getElem? hf) _ (Vector.mem_toList_iff.mpr (Vector.getElem_mem _))

theorem copySource_le {imm : Bool} {src : Byte} (hs : s.bytesOnly) (h : copySource imm src s = .ok v) : v ≤ 255 := by
  obtain ⟨-, hlit⟩ | ⟨-, hreg⟩ := copySource_eq_ok_iff.mp h
  · rw [BitVec.le_def, hlit]
    exact Nat.le_of_lt_succ src.isLt
  · exact regRead_le hs hreg

/-- A new frame's arguments are a staging area. -/
theorem forall_mem_frames_append {p r : Option Nat} (hs : s.bytesOnly) :
    ∀ f ∈ s.frames ++ [⟨p, r, s.act.staging⟩], ∀ w ∈ f.args.toList, w ≤ 255 := by
  obtain ⟨⟨-, hstaging, -⟩, -, hframes⟩ := bytesOnly_iff.mp hs
  exact List.forall_mem_append.mpr ⟨hframes, List.forall_mem_singleton.mpr hstaging⟩

theorem Effect.bytesOnly {i : Instr} (hreset : s.cfg.resetWord ≤ 255) (hs : s.bytesOnly) (h : Effect s i t) :
    t.bytesOnly := by
  obtain ⟨hact, hcallers, hframes⟩ := bytesOnly_iff.mp hs
  cases h with
  | badRead | badWrite | badTarget => exact bytesOnly_raise hs _
  | advanced | skipped => exact bytesOnly_setPc hs _
  | pushed => exact bytesOnly_iff.mpr ⟨hact, hcallers, forall_mem_frames_append hs⟩
  | popped _ f =>
    obtain ⟨_, _, he⟩ := popFrame_eq f s
    rw [he]
    exact bytesOnly_iff.mpr ⟨hact, hcallers, hframes⟩
  | copied _ _ _ _ _ _ hv hu => exact bytesOnly_setPc (bytesOnly_regWrite hs (copySource_le hs hv) hu) _
  | called => exact ⟨List.forall_mem_cons.mpr ⟨bytesOnly_freshActivation hreset _ _, hs.1⟩, forall_mem_frames_append hs⟩

/-- Settles O45: an instruction passes on words up to 255, and a return passes on the callee's return slot. -/
theorem stepKeepsWordsBelow256 : Obligations.StepKeepsWordsBelow256 := by
  intro s t hreset hs h
  obtain ⟨hact, hcallers, hframes⟩ := bytesOnly_iff.mp hs
  obtain ⟨-, ⟨-, ⟨_, -, rfl⟩ | ⟨_, _, -, he⟩⟩ | ⟨-, hend⟩⟩ := step_next h
  · exact bytesOnly_raise hs _
  · exact (exec_next he).bytesOnly hreset hs
  · obtain ⟨-, rfl⟩ | ⟨c, cs, dst, hc, -, hret⟩ := activationEnd_next hend
    · exact bytesOnly_iff.mpr ⟨hact, hcallers, hframes⟩
    · obtain ⟨hcb, hrest⟩ := List.forall_mem_cons.mp (hc ▸ hcallers)
      have hpop : (popActivation c cs s).bytesOnly := bytesOnly_iff.mpr ⟨hcb, hrest, hframes⟩
      obtain ⟨-, -, hretSlot⟩ := hact
      obtain ⟨u, hu, rfl⟩ | ⟨-, rfl⟩ := hret
      · exact bytesOnly_setPc (bytesOnly_regWrite hpop hretSlot hu) _
      · exact bytesOnly_raise hpop _

end Sys2Proof.Machine

/-! An instruction reads nothing of a suspended activation but its `CUR`: each effect is the same effect above other
callers with the same `CUR`s (10_state.md sections 2 and 4). -/

namespace Sys2Proof.Machine

variable {s t : State} {cs : List Activation}

/-- The state with other suspended activations. -/
def State.withCallers (cs : List Activation) (s : State) : State := { s with callers := cs }

/-- The next state of `s` above other suspended activations: what the step pushed stays on top of them. -/
def State.rebase (s : State) (cs : List Activation) (t : State) : State :=
  t.withCallers (t.callers.take (t.callers.length - s.callers.length) ++ cs)

theorem rebase_of_callers_eq (h : t.callers = s.callers) : s.rebase cs t = t.withCallers cs := by
  simp [State.rebase, h]

theorem rebase_of_callers_eq_cons (h : t.callers = s.act :: s.callers) :
    s.rebase cs t = t.withCallers (s.act :: cs) := by
  simp [State.rebase, h]

theorem rebase_setPc (pc : Nat) : s.rebase cs (s.setPc pc) = (s.withCallers cs).setPc pc :=
  rebase_of_callers_eq (State.setPc_callers s pc)

/-! ## What is computed from the callers -/

theorem length_eq_of_map_cur (hcs : cs.map (·.cur) = s.callers.map (·.cur)) : cs.length = s.callers.length := by
  simpa using congrArg List.length hcs

/-- Which frames are live depends on the `CUR`s only. -/
theorem live_withCallers (hcs : cs.map (·.cur) = s.callers.map (·.cur)) : (s.withCallers cs).live = s.live := by
  funext r
  have hany : ∀ as : List Activation,
      (as.any fun a => (frameChain s.frames a.cur).contains r)
        = (as.map (·.cur)).any fun q => (frameChain s.frames q).contains r := fun as => by
    rw [List.any_map]
    rfl
  simp only [State.live, State.activations, State.withCallers, List.any_cons]
  rw [hany cs, hany s.callers, hcs]

theorem liveFrames_withCallers (hcs : cs.map (·.cur) = s.callers.map (·.cur)) :
    (s.withCallers cs).liveFrames = s.liveFrames :=
  congrArg (fun p => (List.range s.frames.length).countP p) (live_withCallers hcs)

theorem regWrite_withCallers {id : Byte} {v : Word} (h : regWrite id v s = .ok t) :
    regWrite id v (s.withCallers cs) = .ok (t.withCallers cs) := by
  have hmap : regWrite id v (s.withCallers cs) = (regWrite id v s).map (State.withCallers cs) := by
    unfold regWrite
    split_ifs <;> rfl
  rw [hmap, h]
  rfl

theorem raise_withCallers (d : Diag) (hcs : cs.map (·.cur) = s.callers.map (·.cur)) :
    raise d (s.withCallers cs) = (raise d s).withCallers cs := by
  simp [raise, State.withCallers, State.depth, length_eq_of_map_cur hcs]

theorem rebase_raise (d : Diag) (hcs : cs.map (·.cur) = s.callers.map (·.cur)) :
    s.rebase cs (raise d s) = raise d (s.withCallers cs) := by
  rw [rebase_of_callers_eq (raise_callers s d), raise_withCallers d hcs]

theorem popFrame_withCallers (f : Frame) : popFrame f (s.withCallers cs) = (popFrame f s).withCallers cs := by
  unfold popFrame
  split <;> rfl

/-! ## Each effect -/

theorem Effect.withCallers {i : Instr} (hcs : cs.map (·.cur) = s.callers.map (·.cur)) (h : Effect s i t) :
    Effect (s.withCallers cs) i (s.rebase cs t) := by
  have hcap : atLimit s.cfg.frameCap (s.withCallers cs).liveFrames = atLimit s.cfg.frameCap s.liveFrames := by
    rw [liveFrames_withCallers hcs]
  cases h with
  | badRead src dst h hs =>
    rw [rebase_raise _ hcs]
    exact .badRead src dst h hs
  | badWrite imm src dst v h hv hd =>
    rw [rebase_raise _ hcs]
    exact .badWrite imm src dst v h hv hd
  | badTarget imm x t0 t1 dst h hc hr hv =>
    rw [rebase_raise _ hcs]
    exact .badTarget imm x t0 t1 dst h hc hr hv
  | advanced _ h h' =>
    rw [rebase_setPc]
    exact .advanced i h h'
  | skipped imm x t0 t1 dst h hr =>
    rw [rebase_setPc]
    exact .skipped imm x t0 t1 dst h hr
  | copied imm src dst v u h hv hu =>
    have hcallers : u.callers = s.callers := by
      obtain ⟨_, _, _, rfl⟩ := regWrite_eq hu
      rfl
    rw [rebase_of_callers_eq ((State.setPc_callers u _).trans hcallers)]
    exact .copied imm src dst v (u.withCallers cs) h hv (regWrite_withCallers hu)
  | pushed imm h =>
    rw [rebase_of_callers_eq (s := s) (t := afterScope s) rfl]
    exact .pushed imm (hcap.trans h)
  | popped imm f h =>
    have hcallers : (popFrame f s).callers = s.callers := by
      obtain ⟨_, _, he⟩ := popFrame_eq f s
      rw [he]
    rw [rebase_of_callers_eq hcallers, ← popFrame_withCallers]
    exact .popped imm f h
  | called imm x t0 t1 dst h hc hr hv hf hd =>
    have hdepth : (s.withCallers cs).activations.length = s.activations.length :=
      congrArg Nat.succ (length_eq_of_map_cur hcs)
    rw [rebase_of_callers_eq_cons (t := afterCall _ s) rfl]
    refine .called imm x t0 t1 dst h hc hr hv (hcap.trans hf) ?_
    rw [hdepth]
    exact hd

theorem step_of_invalidOpcode {b : Byte} (hr : s.status = .running) (hpc : s.act.pc < s.len)
    (h : decode (s.im.drop s.act.pc) = .invalidOpcode b) :
    step s = .next (raise ⟨.invalidOpcode, b.setWidth 16, .none⟩ s) := by
  rw [step_eq_instructionStep hr (List.getElem?_eq_getElem hpc), instructionStep_of_invalidOpcode h]

/-- Settles O35: the step decodes the same bytes, and what the instruction did it does above the other callers. -/
theorem callersAreNeverRead : Obligations.CallersAreNeverRead := by
  intro s t cs hpc hcs h
  obtain ⟨hr, ⟨-, ⟨b, hdec, rfl⟩ | ⟨i, rest, hdec, he⟩⟩ | ⟨hend, -⟩⟩ := step_next h
  · exact (step_of_invalidOpcode (s := s.withCallers cs) hr hpc hdec).trans
      (congrArg Host.Outcome.next (rebase_raise _ hcs).symm)
  · exact (step_of_decode (s := s.withCallers cs) hr hpc hdec).trans (exec_of_effect ((exec_next he).withCallers hcs))
  · exact absurd hpc (Nat.not_lt.mpr hend)

end Sys2Proof.Machine

/-! Which instruction can stop, and how (60_exceptions.md section 3, R185 to R188). -/

namespace Sys2Proof.Machine

variable {s t : State}

/-- What an instruction that faults has met, and when. -/
inductive FaultCause (s : State) : Instr → Fault → Prop where
  /-- An operand of a `Copy` lies beyond the stream. -/
  | copyCutOff (imm : Bool) (src dst : Byte) (h : s.len ≤ s.act.pc + 2) :
      FaultCause s (.copy imm src dst) (machineCheck .truncated s)
  /-- An operand of a `Call` lies beyond the stream. -/
  | callCutOff (imm : Bool) (cs t0 t1 dst : Byte) (h : s.len ≤ s.act.pc + 4) :
      FaultCause s (.call imm cs t0 t1 dst) (machineCheck .truncated s)
  /-- A `Call`'s call state is neither recognised value. -/
  | callState (imm : Bool) (cs t0 t1 dst : Byte) (hr : cs ≠ s.cfg.csReserved) (hn : cs ≠ s.cfg.csNormal) :
      FaultCause s (.call imm cs t0 t1 dst) (machineCheck .callState s)
  /-- A `Call` finds no room for a frame or an activation. -/
  | callDepth (imm : Bool) (cs t0 t1 dst : Byte)
      (h : atLimit s.cfg.frameCap s.liveFrames = true ∨ atLimit s.cfg.maxDepth s.activations.length = true) :
      FaultCause s (.call imm cs t0 t1 dst) (machineCheck .depth s)
  /-- A `Scope` finds no room for a frame. -/
  | scopeDepth (imm : Bool) (h : atLimit s.cfg.frameCap s.liveFrames = true) :
      FaultCause s (.scope imm) (machineCheck .depth s)
  /-- `CUR` names no frame (log 13). -/
  | dangling (i : Instr) (h : s.frame? s.act.cur = none) : FaultCause s i (.danglingFrame s.act.cur)

/-- A stop that is no error is a fault. -/
theorem settle_fault_iff {r : Except Stop State} {f : Fault} :
    settle s r = .fault f ↔ ∃ e, r = .error e ∧ stopOutcome e s = .fault f := by
  cases r with
  | ok u => simp
  | error e => simp [settle]

theorem execCopy_fault {imm : Bool} {src dst : Byte} {f : Fault} (h : execCopy imm src dst s = .fault f) :
    FaultCause s (.copy imm src dst) f := by
  obtain ⟨e, he, hf⟩ := settle_fault_iff.mp h
  obtain he | ⟨_, -, he⟩ := bind_eq_error he
  · obtain ⟨hlen, rfl⟩ := operandsInside_error he
    cases hf
    exact .copyCutOff imm src dst hlen
  obtain he | ⟨v, -, he⟩ := bind_eq_error he
  · obtain ⟨-, -, rfl⟩ | ⟨hcur, rfl⟩ := copySource_error he <;> cases hf
    exact .dangling _ hcur
  obtain he | ⟨u, -, he⟩ := bind_eq_error he
  · obtain ⟨-, rfl⟩ := regWrite_error he
    cases hf
  · cases he

theorem execScope_fault {imm : Bool} {f : Fault} (h : execScope imm s = .fault f) : FaultCause s (.scope imm) f := by
  obtain ⟨e, he, hf⟩ := settle_fault_iff.mp h
  obtain he | ⟨_, -, he⟩ := bind_eq_error he
  · obtain ⟨hcap, rfl⟩ := newFrame_error he
    cases hf
    exact .scopeDepth imm hcap
  · cases he

theorem execAbort_fault {imm : Bool} {f : Fault} (h : execAbort imm s = .fault f) : FaultCause s (.abort imm) f := by
  unfold execAbort at h
  split at h <;> cases h
  exact .dangling _ ‹_›

theorem execCall_fault {imm : Bool} {cs t0 t1 dst : Byte} {f : Fault} (h : execCall imm cs t0 t1 dst s = .fault f) :
    FaultCause s (.call imm cs t0 t1 dst) f := by
  obtain ⟨e, he, hf⟩ := settle_fault_iff.mp h
  obtain he | ⟨_, -, he⟩ := bind_eq_error he
  · obtain ⟨hlen, rfl⟩ := operandsInside_error he
    cases hf
    exact .callCutOff imm cs t0 t1 dst hlen
  split at he
  · cases he
  · split at he
    · obtain ⟨-, rfl⟩ | ⟨-, rfl, hroom⟩ := callNormal_error he <;> cases hf
      exact .callDepth imm cs t0 t1 dst hroom
    · cases he
      cases hf
      exact .callState imm cs t0 t1 dst ‹_› ‹_›

/-- Everything an instruction can stop at. -/
theorem exec_fault {i : Instr} {f : Fault} (h : exec i s = .fault f) : FaultCause s i f := by
  cases i with
  | call imm cs t0 t1 dst => exact execCall_fault h
  | scope imm => exact execScope_fault h
  | abort imm => exact execAbort_fault h
  | copy imm src dst => exact execCopy_fault h
  | mset | mget | cmp | jump | tjmp | fjmp | add | sub | mul | div => cases h

/-- Only a finite limit is ever reached. -/
theorem ne_none_of_atLimit {limit : Option Nat} {n : Nat} (h : atLimit limit n = true) : limit ≠ none := by
  rintro rfl
  cases h

/-- An id that is no register is in the diagnostic as it stands. -/
theorem badRegister_value (id : Byte) (a : Access) : (badRegister id a).value.toNat = id.toNat :=
  BitVec.toNat_setWidth_of_le (by decide)

/-- An instruction that changes `STATUS` raises: `General` from a `Copy`, `InvalidCallAddress` from a `Call`. -/
theorem Effect.raise_of_status_ne {i : Instr} (h : Effect s i t) (hst : t.status ≠ s.status) :
    ∃ d, t = raise d s
      ∧ ((i.tag = 9 ∧ d.kind = .general ∧ 40 ≤ d.value.toNat ∧ d.value.toNat ≤ 255)
        ∨ (i.tag = 0 ∧ d.kind = .invalidCallAddress)) := by
  cases h with
  | badRead src dst _ hs =>
    refine ⟨_, rfl, .inl ⟨rfl, rfl, ?_⟩⟩
    rw [badRegister_value]
    exact ⟨hs, Nat.le_of_lt_succ src.isLt⟩
  | badWrite imm src dst v _ _ hd =>
    refine ⟨_, rfl, .inl ⟨rfl, rfl, ?_⟩⟩
    rw [badRegister_value]
    exact ⟨Nat.le_of_succ_le hd, Nat.le_of_lt_succ dst.isLt⟩
  | badTarget => exact ⟨_, rfl, .inr ⟨rfl, rfl⟩⟩
  | advanced | skipped | pushed | called => exact absurd rfl hst
  | copied _ _ _ _ _ _ _ hu => exact absurd (regWrite_status hu) hst
  | popped _ f => exact absurd (popFrame_status f s) hst

/-- Settles O37: the faults are those of `FaultCause`, of which a `CUR` that names a frame shuts out the last. -/
theorem whichInstructionCanStop : Obligations.WhichInstructionCanStop := by
  refine fun i s hcur => ⟨fun f hf => ?_, fun t ht => (exec_next ht).raise_of_status_ne, exec_ne_refused i s⟩
  cases exec_fault hf with
  | copyCutOff _ _ _ h => exact .inl ⟨rfl, .inr rfl, h⟩
  | callCutOff _ _ _ _ _ h => exact .inl ⟨rfl, .inl rfl, h⟩
  | callState _ _ _ _ _ hr hn => exact .inr (.inl ⟨rfl, by simp [Instr.wellFormed, hr, hn]⟩)
  | callDepth _ _ _ _ _ h =>
    exact .inr (.inr ⟨rfl, Nat.zero_le _, h.symm.imp ne_none_of_atLimit ne_none_of_atLimit⟩)
  | scopeDepth _ h => exact .inr (.inr ⟨rfl, Nat.le_refl _, .inr (ne_none_of_atLimit h)⟩)
  | dangling _ h =>
    rw [State.frame?, List.getElem?_eq_getElem hcur] at h
    cases h

end Sys2Proof.Machine

/-! The stops of `Copy` and `Call`, and what `Call` does in each of its outcomes (40_decode_dispatch.md section 3,
42_call.md sections 1 to 3). -/

namespace Sys2Proof.Machine

variable {s t : State}

/-- Settles O8: fewer bytes than the tag asks for stand behind the opcode byte, so the fetch finds the cut-off. -/
theorem cutOffInstructionIsMachineCheck : Obligations.CutOffInstructionIsMachineCheck := by
  intro s b hr hb hcut
  have hlt : s.act.pc < s.im.length := (List.getElem?_eq_some_iff.mp hb).1
  have hle : s.im.length ≤ s.act.pc + operandBytes (tagOf b) := by
    obtain ⟨htag, hle⟩ | ⟨htag, hle⟩ := hcut <;>
      · rw [htag]
        exact hle
  have hlen : (s.im.drop (s.act.pc + 1)).length < operandBytes (tagOf b) := by
    rw [List.length_drop]
    omega
  have hdec : decode (s.im.drop s.act.pc) = .truncated := by
    rw [im_drop_pc_eq_cons hb, decode_of_length_lt hlen]
  rw [step_eq_instructionStep hr hb, instructionStep, fetch, hdec]
  rfl

/-! ## Where `CUR` names no frame -/

theorem regRead_dangling {id : Byte} (h32 : 32 ≤ id.toNat) (h40 : id.toNat < 40) (hcur : s.frame? s.act.cur = none) :
    regRead id s = .error (.broken (.danglingFrame s.act.cur)) := by
  simp only [regRead, Nat.not_lt.mpr h32, h40, dite_false, dite_true, hcur]

/-- Settles O19: the read of an argument id and `Abort` are the two that look the current frame up. -/
theorem danglingCurrentFrameStops : Obligations.DanglingCurrentFrameStops := by
  refine fun s imm src dst hcur => ⟨fun hlen h32 h40 => ?_, ?_⟩
  · have hsrc : copySource false src s = .error (.broken (.danglingFrame s.act.cur)) := regRead_dangling h32 h40 hcur
    rw [exec, execCopy, operandsInside_of_lt hlen, bind_ok, hsrc]
    rfl
  · rw [exec, execAbort, hcur]
    rfl

/-! ## `Call` -/

/-- The checks of R118 in order: with the operands in the stream, the call state decides. -/
theorem exec_call_of_cutOff (imm : Bool) (cs t0 t1 dst : Byte) (h : s.len ≤ s.act.pc + 4) :
    exec (.call imm cs t0 t1 dst) s = .fault (machineCheck .truncated s) := by
  rw [exec, execCall, operandsInside_of_le h]
  rfl

theorem exec_call_of_unrecognised (imm : Bool) {cs : Byte} (t0 t1 dst : Byte) (h : s.act.pc + 4 < s.len)
    (hn : cs ≠ s.cfg.csNormal) (hr : cs ≠ s.cfg.csReserved) :
    exec (.call imm cs t0 t1 dst) s = .fault (machineCheck .callState s) := by
  rw [exec, execCall, operandsInside_of_lt h, bind_ok, if_neg hr, if_neg hn]
  rfl

theorem exec_call_normal (imm : Bool) (t0 t1 dst : Byte) (h : s.act.pc + 4 < s.len)
    (hne : s.cfg.csNormal ≠ s.cfg.csReserved) :
    exec (.call imm s.cfg.csNormal t0 t1 dst) s = settle s (callNormal (callTargetRaw s.cfg t0 t1) s) := by
  rw [exec, execCall, operandsInside_of_lt h, bind_ok, if_neg hne, if_pos rfl]

/-- Settles O21: the reserved call state has the one effect `skipped`. -/
theorem reservedCallStateOnlyAdvances : Obligations.ReservedCallStateOnlyAdvances :=
  fun _ imm t0 t1 dst h => exec_of_effect (.skipped imm _ t0 t1 dst h rfl)

/-- Settles O22: the operand extent is checked before the call state is looked at. -/
theorem callMachineChecksInOrder : Obligations.CallMachineChecksInOrder := fun _ imm cs t0 t1 dst =>
  ⟨exec_call_of_cutOff imm cs t0 t1 dst, exec_call_of_unrecognised imm t0 t1 dst⟩

theorem State.roomForActivation_iff :
    s.roomForActivation ↔ atLimit s.cfg.maxDepth s.activations.length = false :=
  atLimit_eq_false_iff.symm

/-- A normal call of a valid target, without room for the frame or for the callee, stops before anything is changed. -/
theorem callNormal_of_no_room {raw : Word} (hv : targetValid s (callTarget s raw) = true)
    (h : ¬ (s.roomForFrame ∧ s.roomForActivation)) : callNormal raw s = .error (.check .depth) := by
  match hr : callNormal raw s with
  | .ok u =>
    obtain ⟨-, hcap, hdepth, -⟩ := callNormal_ok hr
    exact absurd ⟨State.roomForFrame_iff.mpr hcap, State.roomForActivation_iff.mpr hdepth⟩ h
  | .error e =>
    obtain ⟨hv', -⟩ | ⟨-, rfl, -⟩ := callNormal_error hr
    · rw [hv] at hv'
      cases hv'
    · rfl

/-- Settles O20: with room the call is the effect `called`; without it the frame or the activation is refused. -/
theorem callStartsCallee : Obligations.CallStartsCallee := by
  intro s imm t0 t1 dst b hlen hne hb htag
  have hv : targetValid s (callTarget s (callTargetRaw s.cfg t0 t1)) = true :=
    targetValid_iff.mpr (by rw [hb, Option.map_some, htag])
  refine ⟨fun hcap hdepth => ?_, fun hroom => ?_⟩
  · exact exec_of_effect (.called imm _ t0 t1 dst hlen rfl hne hv (State.roomForFrame_iff.mp hcap)
      (State.roomForActivation_iff.mp hdepth))
  · rw [exec_call_normal imm t0 t1 dst hlen hne, callNormal_of_no_room hv hroom]
    rfl

/-- Settles O29: of what a `Call` can do, one effect raises, one skips and one starts a callee. -/
theorem callKeepsCallerAndMemory : Obligations.CallKeepsCallerAndMemory := by
  intro s t imm cs t0 t1 dst h
  cases exec_next h with
  | badTarget =>
    exact ⟨⟨rfl, rfl, rfl, fun _ => rfl, rfl, rfl, rfl⟩, .inr (.inl ⟨rfl, rfl, _, rfl, rfl⟩)⟩
  | advanced _ htag => simp [Instr.tag] at htag
  | skipped => exact ⟨⟨rfl, rfl, rfl, fun _ => rfl, rfl, rfl, rfl⟩, .inl ⟨rfl, rfl, rfl, rfl, rfl⟩⟩
  | called => exact ⟨⟨rfl, rfl, rfl, fun _ => rfl, rfl, rfl, rfl⟩, .inr (.inr ⟨rfl, rfl, rfl, rfl⟩)⟩

/-- Two bytes make a number below 2 to the 16, so the word holds it whole. -/
theorem callTargetRaw_little {c : Config} (h : c.callAddrOrder = .little) (t0 t1 : Byte) :
    (callTargetRaw c t0 t1).toNat = t0.toNat + 256 * t1.toNat := by
  have h0 := t0.isLt
  have h1 := t1.isLt
  simp only [callTargetRaw, h, BitVec.toNat_ofNat]
  omega

theorem callTargetRaw_big {c : Config} (h : c.callAddrOrder = .big) (t0 t1 : Byte) :
    (callTargetRaw c t0 t1).toNat = 256 * t0.toNat + t1.toNat := by
  have h0 := t0.isLt
  have h1 := t1.isLt
  simp only [callTargetRaw, h, BitVec.toNat_ofNat]
  omega

theorem callTarget_absolute (h : s.cfg.callTargetMode = .absolute) (raw : Word) : callTarget s raw = raw.toNat := by
  simp [callTarget, h]

theorem callTarget_callerSlice (h : s.cfg.callTargetMode = .callerSlice) (raw : Word) :
    callTarget s raw = s.act.base + raw.toNat := by
  simp [callTarget, h]

/-- Settles O24: the order decides the raw target, and the mode whether `BASE` is added. -/
theorem callTargetByOrderAndMode : Obligations.CallTargetByOrderAndMode := by
  refine fun s t0 t1 raw => ⟨fun h => callTargetRaw_little h t0 t1, fun h => callTargetRaw_big h t0 t1,
    fun h => callTarget_absolute h raw, fun h => callTarget_callerSlice h raw, fun hbase => ?_⟩
  cases hmode : s.cfg.callTargetMode with
  | absolute => exact callTarget_absolute hmode raw
  | callerSlice => rw [callTarget_callerSlice hmode, hbase, Nat.zero_add]

/-- Settles O36: only `Copy`'s handler looks at the flag. -/
theorem immediateFlagIsIgnored : Obligations.ImmediateFlagIsIgnored := fun _ _ _ _ _ _ _ =>
  ⟨rfl, rfl, rfl, rfl, rfl, rfl, rfl, rfl, rfl, rfl, rfl, rfl, rfl⟩

end Sys2Proof.Machine

/-! What `Copy`, the instructions without operands, and the end of a callee leave unchanged
(44_copy.md section 1, 43_scope_abort.md, 45_unspecified_opcodes.md section 1, 42_call.md section 3). -/

namespace Sys2Proof.Machine

variable {s t : State} {id : Byte} {v : Word}

/-- A register write leaves every location but the one its id names. -/
theorem regWrite_other_locations (h : regWrite id v s = .ok t) :
    (∀ j : Fin 32, j.val ≠ id.toNat → t.act.g[j] = s.act.g[j])
      ∧ (∀ j : Fin 8, j.val + 32 ≠ id.toNat → t.act.staging[j] = s.act.staging[j])
      ∧ (id.toNat ≠ 40 → t.act.ret = s.act.ret) := by
  obtain ⟨i, hi, rfl⟩ | ⟨i, hi, rfl⟩ | ⟨hid, rfl⟩ := regWrite_ok h
  · exact ⟨fun j hj => Vector.getElem_set_ne i.isLt j.isLt (hi ▸ hj.symm), fun _ _ => rfl, fun _ => rfl⟩
  · refine ⟨fun _ _ => rfl, fun j hj => Vector.getElem_set_ne i.isLt j.isLt fun hij => hj ?_, fun _ => rfl⟩
    rw [← hij, hi]
  · exact ⟨fun _ _ => rfl, fun _ _ => rfl, fun hne => absurd hid hne⟩

/-- Settles O27: a `Copy` raises, or it is a register write and an advance of `PC`. -/
theorem copyChangesOnlyItsDestination : Obligations.CopyChangesOnlyItsDestination := by
  intro s t imm src dst h
  cases exec_next h with
  | badRead | badWrite =>
    exact ⟨⟨rfl, rfl, rfl, rfl, rfl⟩, fun _ => rfl, fun _ _ => rfl, fun _ _ => rfl, fun _ => rfl, ⟨rfl, rfl⟩,
      .inr ⟨_, rfl⟩⟩
  | advanced _ _ htag => exact absurd rfl htag
  | copied _ _ _ v u _ _ hu =>
    obtain ⟨hg, hstaging, hret⟩ := regWrite_other_locations hu
    obtain ⟨_, _, _, rfl⟩ := regWrite_eq hu
    exact ⟨⟨rfl, rfl, rfl, rfl, rfl⟩, fun _ => rfl, hg, hstaging, hret, ⟨rfl, rfl⟩, .inl ⟨rfl, rfl, rfl⟩⟩

/-- Settles O28: of the effects of these instructions, one advances, one enters a new frame and one pops a frame. -/
theorem frameAndIdleInstructionsKeepRegisters : Obligations.FrameAndIdleInstructionsKeepRegisters := by
  intro s t i hcall hcopy h
  cases exec_next h with
  | badRead | badWrite | copied => exact absurd rfl hcopy
  | badTarget | skipped | called => exact absurd rfl hcall
  | advanced _ htag =>
    exact ⟨⟨rfl, rfl, rfl, rfl, rfl, rfl⟩, fun _ => rfl, ⟨rfl, rfl, rfl, rfl, rfl⟩, fun h1 => absurd h1 (by omega),
      fun _ => rfl, fun _ _ => rfl⟩
  | pushed =>
    exact ⟨⟨rfl, rfl, rfl, rfl, rfl, rfl⟩, fun _ => rfl, ⟨rfl, rfl, rfl, rfl, rfl⟩, fun _ => rfl,
      fun h1 => absurd rfl h1, fun h1 => absurd rfl h1⟩
  | popped _ f =>
    obtain ⟨_, _, he⟩ := popFrame_eq f s
    rw [he]
    exact ⟨⟨rfl, rfl, rfl, rfl, rfl, rfl⟩, fun _ => rfl, ⟨rfl, rfl, rfl, rfl, rfl⟩, nofun, fun _ => rfl,
      fun _ h2 => absurd rfl h2⟩

/-- Settles O18: the three kinds of frame are the three cases of popping one. -/
theorem abortPopsFrame : Obligations.AbortPopsFrame := by
  intro s imm f hf
  have hexec : exec (.abort imm) s = .next (popFrame f s) := exec_of_effect (.popped imm f hf)
  refine ⟨fun hp => ?_, fun p hp hr => ?_, fun p r hp hr => ?_⟩
  · rw [hexec, popFrame_of_root hp]
    rfl
  · rw [hexec, popFrame_of_scope hp hr]
    rfl
  · rw [hexec, popFrame_of_call hp hr]
    rfl

/-! ## The end of a callee -/

/-- The end of a callee whose return-value write succeeds. -/
theorem activationEnd_of_regWrite {c : Activation} {cs : List Activation} {u : State} (hc : s.callers = c :: cs)
    (hd : s.im[c.pc + 4]? = some id) (hw : regWrite id s.act.ret (popActivation c cs s) = .ok u) :
    activationEnd s = .next (u.setPc (c.pc + 5)) := by
  simp [activationEnd, hc, hd, hw]

/-- The end of a callee whose `Call` names no location (decision D32, log 31). -/
theorem activationEnd_of_unwritable {c : Activation} {cs : List Activation} (hc : s.callers = c :: cs)
    (hd : s.im[c.pc + 4]? = some id) (hid : 41 ≤ id.toNat) :
    activationEnd s = .next (raise (badRegister id .write) (popActivation c cs s)) := by
  simp [activationEnd, hc, hd, regWrite_unwritable hid]

theorem activationEnd_of_none {c : Activation} {cs : List Activation} (hc : s.callers = c :: cs)
    (hd : s.im[c.pc + 4]? = none) : activationEnd s = .fault (.callerPastEnd c.pc) := by
  simp [activationEnd, hc, hd]

/-- Settles O25: the return value goes through the register write's map of ids, in the popped state. -/
theorem calleeEndDeliversReturnValue : Obligations.CalleeEndDeliversReturnValue := by
  intro s c cs hr hpc hc
  rw [step_eq_activationEnd hr hpc]
  exact ⟨fun d hd =>
    ⟨fun h => activationEnd_of_regWrite hc hd (regWrite_general h),
      fun h hge => activationEnd_of_regWrite hc hd (regWrite_staging hge h),
      fun h => activationEnd_of_regWrite hc hd (regWrite_return h),
      activationEnd_of_unwritable hc hd⟩,
    activationEnd_of_none hc⟩

/-- Settles O30: the end of a callee is a register write in the caller and an advance of its `PC`, or a raise in it. -/
theorem returnChangesOnlyTheDestination : Obligations.ReturnChangesOnlyTheDestination := by
  intro s t c cs d hpc hc hd h
  obtain ⟨-, ⟨hlt, -⟩ | ⟨-, hend⟩⟩ := step_next h
  · exact absurd hlt (Nat.not_lt.mpr hpc)
  obtain ⟨hroot, -⟩ | ⟨c', cs', d', hc', hd', hret⟩ := activationEnd_next hend
  · rw [hc] at hroot
    cases hroot
  obtain ⟨rfl, rfl⟩ := List.cons.inj (hc.symm.trans hc')
  obtain rfl : d = d' := Option.some.inj (hd.symm.trans hd')
  obtain ⟨u, hu, rfl⟩ | ⟨hbad, rfl⟩ := hret
  · obtain ⟨hg, hstaging, hret⟩ := regWrite_other_locations hu
    obtain ⟨_, _, _, rfl⟩ := regWrite_eq hu
    exact ⟨⟨rfl, rfl, rfl, rfl, rfl, fun _ => rfl, rfl, rfl⟩, hg, hstaging, hret, ⟨rfl, rfl⟩, fun _ => ⟨rfl, rfl, rfl⟩⟩
  · exact ⟨⟨rfl, rfl, rfl, rfl, rfl, fun _ => rfl, rfl, rfl⟩, fun _ _ => rfl, fun _ _ => rfl, fun _ => rfl, ⟨rfl, rfl⟩,
      fun hle => absurd hle (by omega)⟩

end Sys2Proof.Machine

/-! Two scenarios over more than one step: a `Scope` undone by an `Abort`, and a callee's entry `Scope`
(43_scope_abort.md section 2, 42_call.md section 3). -/

namespace Sys2Proof.Machine

variable {s t : State}

/-- The frame that a `Scope` has made is the current one. -/
theorem frame?_afterScope : (afterScope s).frame? (afterScope s).act.cur = some ⟨some s.act.cur, none, s.act.staging⟩ :=
  List.getElem?_concat_length

/-- What a `Scope` and an `Abort` on its frame leave: the frame, which is no longer current, and `PC` moved by two. -/
def afterScopeAbort (s : State) : State :=
  { s with
    frames := s.frames ++ [⟨some s.act.cur, none, s.act.staging⟩]
    act := { s.act with pc := s.act.pc + 2 } }

theorem exec_abort_afterScope (imm : Bool) (s : State) :
    exec (.abort imm) (afterScope s) = .next (afterScopeAbort s) :=
  exec_of_effect (.popped imm _ frame?_afterScope)

/-- The frame made is reached from no `CUR`, for every one of them is an old frame. -/
theorem not_live_afterScopeAbort (hs : s.Inv) : (afterScopeAbort s).live s.frames.length = false := by
  obtain ⟨-, -, -, hframes, hcurs, -⟩ := hs
  have hlinks := s.framesOk_links hframes
  refine Bool.eq_false_iff.mpr fun hlive => ?_
  obtain ⟨a, ha, hmem⟩ := State.live_iff.mp hlive
  have hcur : a.cur < s.frames.length := by
    obtain rfl | ha := List.mem_cons.mp ha
    · exact hcurs s.act List.mem_cons_self
    · exact hcurs a (List.mem_cons_of_mem _ ha)
  have hold : frameChain (afterScopeAbort s).frames a.cur = frameChain s.frames a.cur :=
    frameChain_append hlinks _ hcur
  rw [hold] at hmem
  exact Nat.lt_irrefl _ (chainFrom_lt hlinks _ _ hcur _ hmem)

/-- A running core executes an instruction without operands at a byte with its tag and flag. -/
theorem step_eq_exec_of_byte {b : Byte} {i : Instr} (hcall : i.tag ≠ 0) (hcopy : i.tag ≠ 9) (hr : s.status = .running)
    (hb : s.im[s.act.pc]? = some b) (htag : tagOf b = i.tag) (himm : immOf b = i.imm) : step s = exec i s :=
  step_eq_exec_of_tag_ne hcall hcopy hr (by rw [hb, ← htag, ← himm, opcodeByte_fields])

/-- Settles O51: the two steps are the `Scope` and an `Abort` on the frame it made. -/
theorem scopeThenAbortRestoresScope : Obligations.ScopeThenAbortRestoresScope := by
  intro s b c hs hr hroom hb hbtag hc hctag
  have hscope : step s = .next (afterScope s) :=
    (step_eq_exec_of_byte (i := .scope (immOf b)) nofun nofun hr hb hbtag rfl).trans
      (exec_scope_of_roomForFrame _ hroom)
  have habort : step (afterScope s) = .next (afterScopeAbort s) :=
    (step_eq_exec_of_byte (s := afterScope s) (i := .abort (immOf c)) nofun nofun hr hc hctag rfl).trans
      (exec_abort_afterScope _ s)
  exact ⟨_, _, hscope, habort, rfl, not_live_afterScopeAbort hs⟩

/-! ## Argument ids -/

theorem toNat_argumentId (k : Fin 8) : (BitVec.ofNat 8 (32 + k.val)).toNat = 32 + k.val := by
  rw [BitVec.toNat_ofNat]
  omega

/-- Id 32 + k reads argument k of the current frame (41_register_access.md R100). -/
theorem regRead_argumentId {f : Frame} (k : Fin 8) (hf : s.frame? s.act.cur = some f) :
    regRead (BitVec.ofNat 8 (32 + k.val)) s = .ok f.args[k] := by
  have hid := toNat_argumentId k
  rw [regRead_argument (by omega) (by omega) hf]
  simp only [hid, Nat.add_sub_cancel_left]
  rfl

/-- The frame that a `Call` has made is the callee's current one. -/
theorem frame?_afterCall (target : Nat) :
    (afterCall target s).frame? (afterCall target s).act.cur =
      some ⟨some s.act.cur, some (s.act.pc + 5), s.act.staging⟩ :=
  List.getElem?_concat_length

/-- Making a frame keeps every frame that there is. -/
theorem frame?_afterScopeAbort {r : Nat} {f : Frame} (h : s.frame? r = some f) :
    (afterScopeAbort s).frame? r = some f :=
  (List.getElem?_append_left (List.getElem?_eq_some_iff.mp h).1).trans h

/-- Settles O52: the callee's frame has the caller's staged words, its entry `Scope`'s the fresh ones of the callee, and
the `Abort` makes the callee's frame current again. -/
theorem entryScopeHidesArguments : Obligations.EntryScopeHidesArguments := by
  intro s u w x y z cs t0 t1 dst hcall hdepth hscope
  obtain ⟨target, rfl⟩ := exec_call_deeper hcall hdepth
  obtain rfl := exec_scope_next hscope
  refine ⟨_, exec_abort_afterScope z _, fun k => ⟨?_, ?_, ?_⟩⟩
  · exact regRead_argumentId k (frame?_afterCall target)
  · rw [regRead_argumentId k frame?_afterScope]
    exact congrArg _ (Vector.getElem_replicate k.isLt)
  · exact regRead_argumentId k (frame?_afterScopeAbort (frame?_afterCall target))

end Sys2Proof.Machine

/-! The launch: what it makes, and that it starts every invariant (70_reset_and_hazards.md section 1). -/

namespace Sys2Proof.Machine

variable {s t : State}

theorem streamOk_iff {c : Config} {im : List Byte} : streamOk c im = true ↔ im.length + 2 ≤ 2 ^ c.pcBits := by
  simp [streamOk]

/-- The state that a launch gives (R203). -/
def launched (c : Config) (im : List Byte) (b : List String) : State where
  cfg := c
  im := im
  builtins := b
  act := freshActivation c 0 0
  callers := []
  frames := [⟨none, none, Vector.replicate 8 c.resetWord⟩]
  mem := c.memInit
  status := .running
  out := Out.reset

/-- A launch gives it exactly outside RUNNING and with a stream that fits. -/
theorem launch_eq_some_iff {im : List Byte} {b : List String} :
    launch im b s = some t ↔ s.status ≠ .running ∧ streamOk s.cfg im = true ∧ t = launched s.cfg im b := by
  refine ⟨launch_eq_some, ?_⟩
  rintro ⟨hr, hstream, rfl⟩
  rw [launch, if_neg hr, if_pos hstream]
  rfl

/-- Settles O53: the launch is refused, or its state is made of its inputs and the parameters alone. -/
theorem launchMakesEverythingAnew : Obligations.LaunchMakesEverythingAnew := by
  refine fun s im b => ⟨fun hr => if_pos hr, fun hr hlong => ?_, fun hr hfits => ?_⟩
  · refine Option.eq_none_iff_forall_ne_some.mpr fun t ht => ?_
    obtain ⟨-, hstream, -⟩ := launch_eq_some_iff.mp ht
    exact absurd (streamOk_iff.mp hstream) (Nat.not_le.mpr hlong)
  · have hstream := streamOk_iff.mpr hfits
    refine ⟨launched s.cfg im b, launch_eq_some_iff.mpr ⟨hr, hstream, rfl⟩, rfl, rfl, rfl, rfl, rfl, rfl, rfl, rfl,
      fun s' hr' hcfg => ?_⟩
    exact launch_eq_some_iff.mpr ⟨hr', hcfg ▸ hstream, hcfg ▸ rfl⟩

/-- Settles O55: the reset state is that launch's, field by field. -/
theorem resetIsTheLaunchOfNoProgram : Obligations.ResetIsTheLaunchOfNoProgram :=
  launch_eq_some_iff.mpr ⟨by decide, by decide, rfl⟩

/-- The parts of a legal configuration that a launch needs (log 39). -/
theorem Config.wellFormed_launch {c : Config} (h : c.wellFormed = true) :
    c.memInit.wf ∧ limitOk c.maxDepth = true ∧ limitOk c.frameCap = true := by
  simp only [Config.wellFormed, Bool.and_eq_true, decide_eq_true_eq] at h
  obtain ⟨⟨⟨⟨-, hmem⟩, hdepth⟩, hcap⟩, -⟩ := h
  exact ⟨hmem, hdepth, hcap⟩

/-- A legal limit holds the one activation and the one frame of a launch. -/
theorem one_le_of_limitOk {limit : Option Nat} (h : limitOk limit = true) {n : Nat} (hn : limit = some n) : 1 ≤ n := by
  subst hn
  simpa [limitOk, Nat.succ_le_iff] using h

theorem launched_inv {c : Config} {im : List Byte} (b : List String) (hc : c.wellFormed = true)
    (hstream : streamOk c im = true) : (launched c im b).Inv := by
  obtain ⟨hmem, -⟩ := Config.wellFormed_launch hc
  have hframes : (launched c im b).framesOk := by
    refine ⟨Nat.zero_lt_one, fun r hr => ?_⟩
    obtain rfl : r = 0 := Nat.lt_one_iff.mp hr
    rfl
  exact ⟨hc, hstream, hmem, hframes, List.forall_mem_singleton.mpr Nat.zero_lt_one, Nat.zero_le _, nofun⟩

/-- Settles O54: one activation, at position 0 on the root frame, meets each of them. -/
theorem launchMeetsEveryInvariant : Obligations.LaunchMeetsEveryInvariant := by
  intro s t im b hc hl
  obtain ⟨-, hstream, rfl⟩ := launch_eq_some_iff.mp hl
  obtain ⟨-, hdepth, hcap⟩ := Config.wellFormed_launch hc
  have hbudget : callFrames (launched s.cfg im b).frames 0 = 0 := rfl
  refine ⟨launched_inv b hc hstream, ⟨hbudget.le, trivial⟩, (outcomeOk_iff_of_running rfl).mpr ?_, fun hreset => ?_,
    fun n hn => one_le_of_limitOk hdepth hn, fun n hn => ?_⟩
  · exact List.forall_mem_singleton.mpr rfl
  · exact ⟨List.forall_mem_singleton.mpr (bytesOnly_freshActivation hreset 0 0),
      List.forall_mem_singleton.mpr (forall_mem_replicate_le 8 hreset)⟩
  · have hlive : (launched s.cfg im b).liveFrames ≤ 1 := List.countP_le_length
    exact hlive.trans (one_le_of_limitOk hcap hn)

end Sys2Proof.Machine

/-! Data memory: bytes written one after the other read back, and no other address changes (20_memory.md section 5). -/

namespace Sys2Proof.Machine

theorem Memory.read_writeAll_other (m : Memory) {a x : Nat} {bs : List Byte} (h : x < a ∨ a + bs.length ≤ x) :
    (m.writeAll a bs).read x = m.read x := by
  induction bs generalizing m a with
  | nil => rfl
  | cons b bs ih =>
    rw [List.length_cons] at h
    rw [Memory.writeAll, ih (m.write a b) (by omega), Memory.read_write_other m b (by omega)]

theorem Memory.readAll_writeAll (m : Memory) (a : Nat) (bs : List Byte) :
    (m.writeAll a bs).readAll a bs.length = .ok bs := by
  induction bs generalizing m a with
  | nil => rfl
  | cons b bs ih =>
    have hfirst : (m.writeAll a (b :: bs)).read a = some b := by
      rw [Memory.writeAll, Memory.read_writeAll_other _ (.inl (Nat.lt_succ_self a)), Memory.read_write_same]
    have hrest : (m.writeAll a (b :: bs)).readAll (a + 1) bs.length = .ok bs := ih (m.write a b) (a + 1)
    simp only [List.length_cons, Memory.readAll, hfirst, hrest]

/-- Settles O57: the bytes read back by induction on them, and both accesses check the one bound. -/
theorem memWriteReadsBack : Obligations.MemWriteReadsBack := by
  refine fun s a bs => ⟨fun hin => ?_, fun hout => if_pos hout, fun n hout => if_pos hout⟩
  have hout : ¬ memSize < a + bs.length := Nat.not_lt.mpr hin
  have hwrite : memWrite a bs s = .ok { s with mem := s.mem.writeAll a bs } := if_neg hout
  refine ⟨_, hwrite, ?_, fun hwf => memWrite_wf hwf hwrite, fun x hx => Memory.read_writeAll_other s.mem hx⟩
  rw [memRead, if_neg hout]
  exact Memory.readAll_writeAll s.mem a bs

end Sys2Proof.Machine
